-- ==== Sys2Proof/Word.lean ====
section
/-! DEFINITION. The word types of the rc_framing CORE and their widths (`00_scope.md` sections 5 and 7). -/

namespace Sys2Proof

/-- A byte, the spec's `bits8` (`00_scope.md` section 7.1). -/
abbrev Byte := BitVec 8

/-- `CAPW`, the width of a capacity, a length and a buffer index (`00_scope.md` section 5, D5). -/
abbrev capw : Nat := 16

/-- A capacity, a length or a buffer index: a `CAPW`-bit unsigned number (`CAPW = 16`) (`10_state.md` R13, R14). -/
abbrev Cap := BitVec 16

/-- A command word `cw` as presented on the command port (`30_encoding.md` R54). -/
abbrev CommandWord := BitVec 24

/-- `CAP_MAX = 2^CAPW - 1` (`00_scope.md` section 5). -/
abbrev capMax : Nat := 2 ^ capw - 1

end Sys2Proof
end

