-- ==== Sys2Proof/Machine/Operands.lean ====
section
/-! DEFINITION. The fields of a command word (`30_encoding.md` R54) and the assembly of its operand
(R55), with the constraint on the operand bits a command does not use. -/

namespace Sys2Proof.Machine

/-- `cw[23:20]`, the unit (`30_encoding.md` R54). -/
def unitField (cw : CommandWord) : BitVec 4 := cw.extractLsb' 20 4

/-- `cw[19:16]`, the function within the unit (`30_encoding.md` R54). -/
def fnField (cw : CommandWord) : BitVec 4 := cw.extractLsb' 16 4

/-- `cw[15:0]`, the operand field (`30_encoding.md` R54). -/
def argField (cw : CommandWord) : BitVec 16 := cw.extractLsb' 0 16

/-- The three operand forms of `30_encoding.md` R55. -/
inductive OperandForm where
  /-- No operand: `arg` must be 0. -/
  | none
  /-- A byte `imm8`. -/
  | byte
  /-- A capacity `cap`. -/
  | capacity
deriving DecidableEq, Repr

/-- `imm8 = arg[7:0]`, used as an unsigned byte (`30_encoding.md` R55). -/
def imm8Operand (arg : BitVec 16) : Byte := arg.extractLsb' 0 8

/-- `cap = arg[15:0]`, unsigned and not scaled (`30_encoding.md` R55). -/
def capOperand (arg : BitVec 16) : Cap := arg

/-- The constraint R55 puts on `arg` for each operand form. -/
def OperandForm.admits : OperandForm → BitVec 16 → Bool
  | .none, arg => arg == 0
  | .byte, arg => arg.extractLsb' 8 8 == 0
  | .capacity, _ => true

end Sys2Proof.Machine
end

