-- ==== Sys2Proof/Syntax.lean ====
section
/-! DEFINITION. The commands of the block, one constructor per row of the opcode map (`30_encoding.md`
R53, R56), and the four pseudo-instructions, which have no command word (R60). -/

namespace Sys2Proof

/-- The eight commands (`30_encoding.md` R53), with their operands (R55). -/
inductive Instr where
  /-- `CRC.CLR` (`40_crc.md` R74). -/
  | crcClr
  /-- `CRC.UPD imm8` (`40_crc.md` R75). -/
  | crcUpd (imm8 : Byte)
  /-- `ENC.START cap` (`41_encoder.md` R83). -/
  | encStart (cap : Cap)
  /-- `ENC.PUT imm8` (`41_encoder.md` R84). -/
  | encPut (imm8 : Byte)
  /-- `ENC.END` (`41_encoder.md` R85). -/
  | encEnd
  /-- `DEC.START cap` (`42_decoder.md` R97). -/
  | decStart (cap : Cap)
  /-- `DEC.PUT imm8` (`42_decoder.md` R98). -/
  | decPut (imm8 : Byte)
  /-- `DEC.END` (`42_decoder.md` R99). -/
  | decEnd
deriving DecidableEq, Repr

/-- The three units (`00_scope.md` R1). -/
inductive Component where
  | crc
  | enc
  | dec
deriving DecidableEq, Repr

/-- The unit a command is addressed to (`30_encoding.md` R53). -/
def Instr.component : Instr → Component
  | .crcClr => .crc
  | .crcUpd _ => .crc
  | .encStart _ => .enc
  | .encPut _ => .enc
  | .encEnd => .enc
  | .decStart _ => .dec
  | .decPut _ => .dec
  | .decEnd => .dec

/-- The whole-frame pseudo-instructions (`30_encoding.md` R60, `43_frame_macros.md`). -/
inductive Pseudo where
  /-- `CALC data` (R115). -/
  | crcCalc (data : List Byte)
  /-- `VERIFY data` (R116). -/
  | crcVerify (data : List Byte)
  /-- `ENCODE cap, payload` (R117). -/
  | encodeFrame (cap : Cap) (payload : List Byte)
  /-- `DECODE cap, frame`, the frame already without its delimiters (R118). -/
  | decodeFrame (cap : Cap) (frame : List Byte)
deriving DecidableEq, Repr

/-- The expansion of a pseudo-instruction into commands (`43_frame_macros.md` R115 to R118). -/
def Pseudo.expand : Pseudo → List Instr
  | .crcCalc data => .crcClr :: data.map .crcUpd
  | .crcVerify data => .crcClr :: data.map .crcUpd
  | .encodeFrame cap payload => .encStart cap :: (payload.map .encPut ++ [.encEnd])
  | .decodeFrame cap frame => .decStart cap :: (frame.map .decPut ++ [.decEnd])

end Sys2Proof
end

