-- ==== Sys2Proof/Decode.lean ====
section
/-! DEFINITION. The decoder of command words, total and rejecting every reserved word by name
(`30_encoding.md` R54 to R57), the encoder written from the opcode map (R56), the word at another CAPW
(R61), and the host's entry point `decodeTableWord`. -/

namespace Sys2Proof

open Sys2Proof.Machine

/-- Why a word is reserved, after the list of `30_encoding.md` R57. -/
inductive DecodeError where
  /-- `unit` not in 1, 2, 3. -/
  | reservedUnit
  /-- `unit == 1` with `fn >= 2`, or `unit == 2` or `3` with `fn >= 3`. -/
  | reservedFunction
  /-- A byte-operand command with `arg[15:8] != 0`. -/
  | operandNotByte
  /-- A no-operand command with `arg != 0`. -/
  | operandNotZero
  /-- A capacity wider than CAPW; only at a CAPW below 8 (R61). -/
  | capacityTooWide
deriving DecidableEq, Repr

/-- The rows of the opcode map (`30_encoding.md` R56). -/
inductive Op where
  | crcClr
  | crcUpd
  | encStart
  | encPut
  | encEnd
  | decStart
  | decPut
  | decEnd
deriving DecidableEq, Repr

/-- Every row once, in the order of the map. -/
def Op.all : List Op := [.crcClr, .crcUpd, .encStart, .encPut, .encEnd, .decStart, .decPut, .decEnd]

/-- The `op` byte of a row, `cw[23:16]` (`30_encoding.md` R56, first column). -/
def Op.code : Op → BitVec 8
  | .crcClr => 0x10
  | .crcUpd => 0x11
  | .encStart => 0x20
  | .encPut => 0x21
  | .encEnd => 0x22
  | .decStart => 0x30
  | .decPut => 0x31
  | .decEnd => 0x32

/-- The `match` column of `30_encoding.md` R56. -/
def Op.matchWord : Op → CommandWord
  | .crcClr => 0x100000
  | .crcUpd => 0x110000
  | .encStart => 0x200000
  | .encPut => 0x210000
  | .encEnd => 0x220000
  | .decStart => 0x300000
  | .decPut => 0x310000
  | .decEnd => 0x320000

/-- The `mask` column of `30_encoding.md` R56. -/
def Op.maskWord : Op → CommandWord
  | .crcClr => 0xFFFFFF
  | .crcUpd => 0xFFFF00
  | .encStart => 0xFF0000
  | .encPut => 0xFFFF00
  | .encEnd => 0xFFFFFF
  | .decStart => 0xFF0000
  | .decPut => 0xFFFF00
  | .decEnd => 0xFFFFFF

/-- The operand form of a row (`30_encoding.md` R55). -/
def Op.form : Op → OperandForm
  | .crcClr => .none
  | .crcUpd => .byte
  | .encStart => .capacity
  | .encPut => .byte
  | .encEnd => .none
  | .decStart => .capacity
  | .decPut => .byte
  | .decEnd => .none

/-- The row that `unit` and `fn` select (`30_encoding.md` R54, R56), or the kind of R57 that they fall
under. -/
def Op.ofFields (unit fn : BitVec 4) : Except DecodeError Op :=
  if unit = 1 then
    if fn = 0 then .ok .crcClr
    else if fn = 1 then .ok .crcUpd
    else .error .reservedFunction
  else if unit = 2 then
    if fn = 0 then .ok .encStart
    else if fn = 1 then .ok .encPut
    else if fn = 2 then .ok .encEnd
    else .error .reservedFunction
  else if unit = 3 then
    if fn = 0 then .ok .decStart
    else if fn = 1 then .ok .decPut
    else if fn = 2 then .ok .decEnd
    else .error .reservedFunction
  else .error .reservedUnit

/-- The command of a row with its operand taken from `arg` (`30_encoding.md` R55). -/
def Op.instr : Op → BitVec 16 → Instr
  | .crcClr, _ => .crcClr
  | .crcUpd, arg => .crcUpd (imm8Operand arg)
  | .encStart, arg => .encStart (capOperand arg)
  | .encPut, arg => .encPut (imm8Operand arg)
  | .encEnd, _ => .encEnd
  | .decStart, arg => .decStart (capOperand arg)
  | .decPut, arg => .decPut (imm8Operand arg)
  | .decEnd, _ => .decEnd

/-- The kind of R57 that a row's word falls under when its operand bits break the row's constraint. -/
def Machine.OperandForm.violation : OperandForm → DecodeError
  | .none => .operandNotZero
  | .byte => .operandNotByte
  | .capacity => .capacityTooWide

/-- The decoder, total on 24-bit words (`30_encoding.md` R54 to R57). -/
def decode (cw : CommandWord) : Except DecodeError Instr :=
  match Op.ofFields (unitField cw) (fnField cw) with
  | .error e => .error e
  | .ok op => if op.form.admits (argField cw) then .ok (op.instr (argField cw)) else .error op.form.violation

/-- The row of a command (`30_encoding.md` R56). -/
def Instr.op : Instr → Op
  | .crcClr => .crcClr
  | .crcUpd _ => .crcUpd
  | .encStart _ => .encStart
  | .encPut _ => .encPut
  | .encEnd => .encEnd
  | .decStart _ => .decStart
  | .decPut _ => .decPut
  | .decEnd => .decEnd

/-- The operand bits `arg` of a command (`30_encoding.md` R55). -/
def Instr.arg : Instr → BitVec 16
  | .crcClr => 0
  | .crcUpd imm8 => imm8.setWidth 16
  | .encStart cap => cap
  | .encPut imm8 => imm8.setWidth 16
  | .encEnd => 0
  | .decStart cap => cap
  | .decPut imm8 => imm8.setWidth 16
  | .decEnd => 0

/-- The encoder: the row's `match` with the operand in `arg` (`30_encoding.md` R56, for example
`0x210000 | imm8`). -/
def encode (i : Instr) : CommandWord := i.op.matchWord ||| i.arg.setWidth 24

/-- The number of bits of `arg` at a given CAPW (`30_encoding.md` R61). -/
def argBits (capw : Nat) : Nat := max capw 8

/-- The number of bits of a command word at a given CAPW (`30_encoding.md` R61). -/
def commandBits (capw : Nat) : Nat := 8 + argBits capw

/-- The constraint of `30_encoding.md` R61 on `arg` at a given CAPW: `imm8` is `arg[7:0]` and `cap` is
`arg[CAPW-1:0]`, with the bits above them 0; no operand needs `arg` to be 0. -/
def operandFits (capw : Nat) : OperandForm → Nat → Bool
  | .none, arg => arg == 0
  | .byte, arg => decide (arg < 2 ^ 8)
  | .capacity, arg => decide (arg < 2 ^ capw)

/-- Decoding at a given CAPW (`30_encoding.md` R61): the row and its operand, from a word of
`commandBits capw` bits with `op` in the top 8 bits. -/
def decodeAt (capw w : Nat) : Except DecodeError (Op × Nat) :=
  match Op.ofFields (BitVec.ofNat 4 (w / 2 ^ (argBits capw + 4))) (BitVec.ofNat 4 (w / 2 ^ argBits capw)) with
  | .error e => .error e
  | .ok op =>
    if operandFits capw op.form (w % 2 ^ argBits capw) then .ok (op, w % 2 ^ argBits capw)
    else .error op.form.violation

/-- Encoding at a given CAPW (`30_encoding.md` R61). -/
def encodeAt (capw : Nat) (op : Op) (operand : Nat) : Nat := op.code.toNat * 2 ^ argBits capw + operand

/-- The host's entry point: the command the decoder reads from a word whose low `nbits` bits are those
of `w`, every bit above them 0. A command word is a value on a port, so it has no byte order (R54). -/
def decodeTableWord (nbits w : Nat) : Option Instr :=
  if w % 2 ^ nbits < 2 ^ 24 then
    match decode (BitVec.ofNat 24 (w % 2 ^ nbits)) with
    | .ok i => some i
    | .error _ => none
  else none

end Sys2Proof
end

