-- ==== Sys2Proof/Config.lean ====
section
/-! DEFINITION. What is fixed when the hardware is built (`00_scope.md` R4, R5 and section 5) and the
free values of what the spec leaves unspecified (`93_implementation_defined.md` U1 to U5). -/

namespace Sys2Proof

/-- The validity condition of `00_scope.md` R5: the four reserved byte values are pairwise different. -/
def ReservedBytes.distinctBytes (delim esc escDelim escEsc : Byte) : Bool :=
  delim != esc && delim != escDelim && delim != escEsc && esc != escDelim && esc != escEsc && escDelim != escEsc

/-- The four reserved byte values (`00_scope.md` R4), which carry the proof that they are pairwise
different (R5; the first of the two treatments `93_implementation_defined.md` U6 gives).
The default values of the fields are the source's concrete vector; they serve only to show Lean that the
type has a member and are NOT a default of the hardware (D6): nothing of the model uses them. -/
structure ReservedBytes where
  /-- `DELIM`, the frame delimiter. -/
  delim : Byte := 0x00
  /-- `ESC`, the escape byte. -/
  esc : Byte := 0x33
  /-- `ESC_DELIM`, the continuation that stands for `DELIM`. -/
  escDelim : Byte := 0x34
  /-- `ESC_ESC`, the continuation that stands for `ESC`. -/
  escEsc : Byte := 0x35
  /-- R5: the four are pairwise different. -/
  distinct : ReservedBytes.distinctBytes delim esc escDelim escEsc = true := by decide
deriving DecidableEq, Repr, Inhabited

/-- The reserved byte values the hardware was built with: a deployment parameter with no default
(`00_scope.md` R4, U11). Nothing in Lean can evaluate it. DESIGN CHOICE (log 2), safe. -/
opaque ReservedBytes.built : ReservedBytes

/-- The two buffer address spaces (`20_memory.md` R30). -/
inductive Space where
  /-- `OUT`, the encoder's destination buffer. -/
  | out
  /-- `MSG`, the decoder's destination buffer. -/
  | msg
deriving DecidableEq, Repr

/-- The build-time configuration: the reserved byte values (`00_scope.md` R4) and the platform's real
buffer sizes `OUT_SIZE` and `MSG_SIZE` (`20_memory.md` R30, R40). -/
structure Config where
  bytes : ReservedBytes
  /-- `OUT_SIZE`, the number of cells behind `OUT`. -/
  outSize : Nat
  /-- `MSG_SIZE`, the number of cells behind `MSG`. -/
  msgSize : Nat
deriving DecidableEq, Repr

/-- The configuration the hardware was built with; the buffer sizes are the spec's defaults `2^CAPW`
(`00_scope.md` section 5, D28). -/
def Config.built : Config :=
  { bytes := ReservedBytes.built, outSize := 2 ^ capw, msgSize := 2 ^ capw }

/-- The number of cells the platform provides behind a space (`20_memory.md` R30). -/
def Config.size (c : Config) : Space → Nat
  | .out => c.outSize
  | .msg => c.msgSize

/-- FREE VALUE: what a host read of a cell returns where `20_memory.md` R33 says "unspecified" (U1, U2,
U4, U5), drawn by a counter of State, the space and the index. DESIGN CHOICE of its form (log 9), safe. -/
opaque Config.unspecifiedByte : Nat → Space → Nat → Byte

/-- FREE VALUE: what a length output shows outside `DONE` (`10_state.md` R14, R22; U3), drawn by a counter
of State and the unit's space. DESIGN CHOICE of its form (log 9), safe. -/
opaque Config.unspecifiedLen : Nat → Space → Cap

/-- `CFG_REF`, the source's concrete vector (`00_scope.md` section 5): for examples and tests only. -/
def ReservedBytes.cfgRef : ReservedBytes :=
  { delim := 0x00, esc := 0x33, escDelim := 0x34, escEsc := 0x35, distinct := by decide }

/-- `CFG_32` (`95_test_vectors.md` section 1): for examples and tests only. -/
def ReservedBytes.cfg32 : ReservedBytes :=
  { delim := 0x32, esc := 0x33, escDelim := 0x34, escEsc := 0x35, distinct := by decide }

/-- `CFG_B` (`95_test_vectors.md` section 1): for examples and tests only. -/
def ReservedBytes.cfgB : ReservedBytes :=
  { delim := 0xC0, esc := 0xDB, escDelim := 0xDC, escEsc := 0xDD, distinct := by decide }

end Sys2Proof
end

