-- ==== Sys2Proof/Machine/State.lean ====
section
/-! DEFINITION. The state of the block (`10_state.md`, `20_memory.md`), the reasons a step stops, and the
state right after reset (`10_state.md` R25, `70_reset_and_hazards.md` R150, R151). -/

namespace Sys2Proof.Machine

/-- The values of `enc_state` and `dec_state` (`10_state.md` R15). -/
inductive UnitState where
  /-- 0: no frame transaction since reset. -/
  | idle
  /-- 1: a `START` was taken; the unit accepts `PUT` and `END`. -/
  | body
  /-- 2: the frame ended with success. -/
  | done
  /-- 3: the frame ended with an error. -/
  | err
deriving DecidableEq, Repr

/-- The values of `enc_err` and `dec_err` (`10_state.md` R17). -/
inductive ErrorCode where
  /-- 0, `NONE`. -/
  | none
  /-- 1, `CAPACITY_EXCEEDED`. -/
  | capacityExceeded
  /-- 2, `MALFORMED_ESCAPE`. -/
  | malformedEscape
  /-- 3, `CHECKSUM_MISMATCH`. -/
  | checksumMismatch
deriving DecidableEq, Repr

/-- The three error kinds the block raises (`60_exceptions.md` R130 to R133). -/
inductive ErrorKind where
  /-- `CapacityExceeded` (R131). -/
  | capacityExceeded
  /-- `MalformedEscape` (R132). -/
  | malformedEscape
  /-- `ChecksumMismatch` (R133). -/
  | checksumMismatch
deriving DecidableEq, Repr

/-- A buffer memory (`20_memory.md` R30): the cells written so far, by strictly rising index. A cell that
is not listed holds no value the spec states (`70_reset_and_hazards.md` R151; log 11). -/
abbrev Memory := List Host.Cell

/-- The registers ENC and DEC each have (`10_state.md` R10, R12 to R17), with the unit's own buffer
(`20_memory.md` R30: `OUT` is written by ENC only, `MSG` by DEC only). -/
structure FrameUnit where
  /-- `enc_state` / `dec_state` (R15). -/
  state : UnitState
  /-- `enc_err` / `dec_err` (R17). -/
  err : ErrorCode
  /-- `enc_cap` / `dec_cap` (R13). -/
  cap : Cap
  /-- `enc_len` / `dec_len` (R14). -/
  len : Cap
  /-- `enc_crc` / `dec_crc` (R12). -/
  crc : Byte
  /-- `OUT` / `MSG` (`20_memory.md` R30). -/
  buf : Memory
deriving DecidableEq, Repr

/-- What the host can do to the block (`00_scope.md` R7, `70_reset_and_hazards.md` R150). -/
inductive HostInput where
  /-- Present a command word (`30_encoding.md` R54). -/
  | command (cw : CommandWord)
  /-- The external reset event (`70_reset_and_hazards.md` R150). -/
  | reset
deriving DecidableEq, Repr

/-- The state of the block. `port` and `draws` are the model's own fields (log 5, log 9); every other
field is the spec's. -/
structure State where
  /-- The build-time constants (`00_scope.md` R4, `10_state.md` R21, `20_memory.md` R40): no command and no
  reset changes them (log 1). -/
  cfg : Config
  /-- `crc`, the register of the CRC unit (`10_state.md` R11). -/
  crc : Byte
  /-- The ENC unit and `OUT`. -/
  enc : FrameUnit
  /-- The DEC unit and `MSG`. -/
  dec : FrameUnit
  /-- `dec_esc`, the pending-escape flag of DEC (`10_state.md` R19). -/
  decEsc : Bool
  /-- The host inputs the block has not taken yet, oldest first. DESIGN CHOICE (log 5), safe. -/
  port : List HostInput
  /-- Counts the inputs taken; the free values of host reads are drawn by it. DESIGN CHOICE (log 9), safe. -/
  draws : Nat
deriving DecidableEq, Repr

/-- Why the machine faults. -/
inductive Fault where
  /-- A host read of an index at or beyond the number of cells the platform provides (`20_memory.md` R30).
  Raised by `hostRead`, by no step. Safe (log 12). -/
  | noSuchCell (space : Space) (index : Nat)
deriving DecidableEq, Repr

/-- Why a step is refused. -/
inductive Refusal where
  /-- The instruction has no meaning in this model yet; raised by `exec`'s arm, of which none is left. Safe. -/
  | notModelled (mnemonic : String)
  /-- A reserved command word was presented (`30_encoding.md` R57, `93_implementation_defined.md` U8:
  "the decoder's verdict is invalid" and the machine refuses it). Raised by `step`. Safe (log 7). -/
  | reservedWord (cw : CommandWord)
  /-- A `START` with a capacity above the real size of the buffer (`20_memory.md` R40,
  `93_implementation_defined.md` U7: "refuse the START"). Raised by `execEncStart` and `execDecStart`. Safe (log 4). -/
  | capacityBeyondBuffer (space : Space) (cap : Cap)
deriving DecidableEq, Repr

/-- The registers of a unit after reset (`10_state.md` R25), with no listed cell. -/
def FrameUnit.atReset : FrameUnit :=
  { state := .idle, err := .none, cap := 0, len := 0, crc := 0x00, buf := [] }

/-- The machine right after reset (`10_state.md` R25; the four configured values are free, log 2; no
buffer cell is specified, log 11; no input waits, log 5). -/
def State.reset : State :=
  { cfg := Config.built
    crc := 0x00
    enc := FrameUnit.atReset
    dec := FrameUnit.atReset
    decEsc := false
    port := []
    draws := 0 }

end Sys2Proof.Machine
end

