-- ==== Sys2Proof/Machine/Flags.lean ====
section
/-! DEFINITION. The codes of the status registers (`10_state.md` R15, R17) and the flags of the block:
`crc_zero` (R20) and `dec_esc` (R19). No other flag exists (the closing sentence of R20). -/

namespace Sys2Proof.Machine

/-- The 2-bit value of a state register (`10_state.md` R15). -/
def UnitState.code : UnitState → BitVec 2
  | .idle => 0
  | .body => 1
  | .done => 2
  | .err => 3

/-- The 2-bit value of an error code register (`10_state.md` R17). -/
def ErrorCode.code : ErrorCode → BitVec 2
  | .none => 0
  | .capacityExceeded => 1
  | .malformedEscape => 2
  | .checksumMismatch => 3

/-- The error code of an error kind (`10_state.md` R17, `60_exceptions.md` R130). -/
def ErrorKind.errorCode : ErrorKind → ErrorCode
  | .capacityExceeded => .capacityExceeded
  | .malformedEscape => .malformedEscape
  | .checksumMismatch => .checksumMismatch

/-- The output `crc_zero` (`10_state.md` R20): the hardware form of `verify`. -/
def crcZero (crc : Byte) : Bool := crc == 0x00

/-- `dec_esc` after `DEC.PUT` has taken a byte (`10_state.md` R19): 1 exactly when that byte is an `ESC`
which is not itself a continuation byte. -/
def pendingAfter (bytes : ReservedBytes) (pending : Bool) (b : Byte) : Bool := !pending && b == bytes.esc

end Sys2Proof.Machine
end

