-- ==== Sys2Proof/Machine/Framing.lean ====
section
/-! DEFINITION. The wire format and the two frame functions of the function layer: `esc` (`30_encoding.md`
R46), `escaped` (R47), the symbol table (R48), `frame_len` (R51), `strip_delimiters` (R52), `wire` and
`encode` (`41_encoder.md` R91), `scan` (`42_decoder.md` R109) and `decode` (R110). -/

namespace Sys2Proof.Machine

/-- The escape function `esc` (`30_encoding.md` R46). -/
def escape (c : ReservedBytes) (b : Byte) : List Byte :=
  if b = c.delim then [c.esc, c.escDelim]
  else if b = c.esc then [c.esc, c.escEsc]
  else [b]

/-- `escaped(s)` (`30_encoding.md` R47). -/
def escaped (c : ReservedBytes) (s : List Byte) : List Byte := s.flatMap (escape c)

/-- The wire frame of a payload (`30_encoding.md` R45, `41_encoder.md` R91). -/
def wire (c : ReservedBytes) (p : List Byte) : List Byte :=
  [c.delim] ++ escaped c p ++ escape c (crcCalc p) ++ [c.delim]

/-- `elen(b)` (`30_encoding.md` R51). -/
def escapedLen (c : ReservedBytes) (b : Byte) : Nat := if b = c.delim ∨ b = c.esc then 2 else 1

/-- `frame_len(payload)` (`30_encoding.md` R51). -/
def frameLen (c : ReservedBytes) (p : List Byte) : Nat :=
  1 + (p.map (escapedLen c)).sum + escapedLen c (crcCalc p) + 1

/-- `strip_delimiters(w) = w[1 .. len(w) - 1)` (`30_encoding.md` R52, which defines it for `len(w) >= 2`).
DESIGN CHOICE (log 22), unsafe there: a sequence shorter than 2 bytes gives `[]`. -/
def stripDelimiters (w : List Byte) : List Byte := w.tail.dropLast

/-- The byte a recognised continuation stands for (`30_encoding.md` R48, rows 2 to 4). -/
def continuation (c : ReservedBytes) (b : Byte) : Option Byte :=
  if b = c.escDelim then some c.delim
  else if b = c.escEsc then some c.esc
  else none

/-- Reading the wire by the symbol table (`30_encoding.md` R48): the unescaped bytes, or none if an
illegal form (row 4 or 5) is met. -/
def unescape (c : ReservedBytes) : List Byte → Option (List Byte)
  | [] => some []
  | [b] => if b = c.esc then none else some [b]
  | b :: b' :: rest =>
    if b = c.esc then
      match continuation c b' with
      | some v => (unescape c rest).map (v :: ·)
      | none => none
    else (unescape c (b' :: rest)).map (b :: ·)

/-- `encode(payload, cap)` (`41_encoder.md` R91): the bytes written on success; their number is the
returned length. -/
def encodeFrame (c : ReservedBytes) (p : List Byte) (cap : Nat) : Except ErrorKind (List Byte) :=
  if (wire c p).length ≤ cap then .ok (wire c p) else .error .capacityExceeded

/-- Append one unescaped byte if the buffer has room (the capacity check of `42_decoder.md` R109). -/
def push (cap : Nat) (u : List Byte) (v : Byte) : Except ErrorKind (List Byte) :=
  if u.length = cap then .error .capacityExceeded else .ok (u ++ [v])

/-- The loop of `scan` (`42_decoder.md` R109) from the unescaped bytes `u` so far. -/
def scanFrom (c : ReservedBytes) (cap : Nat) : List Byte → List Byte → Except ErrorKind (List Byte)
  | u, [] => .ok u
  | u, [b] => if b = c.esc then .error .malformedEscape else push cap u b
  | u, b :: b' :: rest =>
    if b = c.esc then
      match continuation c b' with
      | none => .error .malformedEscape
      | some v =>
        match push cap u v with
        | .error e => .error e
        | .ok u' => scanFrom c cap u' rest
    else
      match push cap u b with
      | .error e => .error e
      | .ok u' => scanFrom c cap u' (b' :: rest)

/-- `scan(f, cap)` (`42_decoder.md` R109). -/
def scan (c : ReservedBytes) (f : List Byte) (cap : Nat) : Except ErrorKind (List Byte) := scanFrom c cap [] f

/-- `decode(f, cap)` (`42_decoder.md` R110): the payload on success; its length is the returned length. -/
def decodeFrame (c : ReservedBytes) (f : List Byte) (cap : Nat) : Except ErrorKind (List Byte) :=
  match scan c f cap with
  | .error e => .error e
  | .ok u =>
    if u.length = 0 then .error .malformedEscape
    else if crcCalc u ≠ 0x00 then .error .checksumMismatch
    else .ok u.dropLast

end Sys2Proof.Machine
end

