-- ==== Sys2Proof/Machine/Ops.lean ====
section
/-! DEFINITION. The named operations the meanings are written over: reading and writing a buffer memory
(`20_memory.md` R32, R39), raising an error and beginning a frame (`60_exceptions.md` R134, R139), the
capacity-checked writes (`41_encoder.md` R81, R82, `42_decoder.md` R96), updates of State, taking a host
input, and the external reset (`70_reset_and_hazards.md` R150). -/

namespace Sys2Proof.Machine

/-- The stored byte of a cell, if the block has written it. -/
def Memory.read (m : Memory) (a : Nat) : Option Byte :=
  match m with
  | [] => none
  | (k, v) :: rest => if k = a then some v else Memory.read rest a

/-- Store one byte (`00_scope.md` section 7.2, `MemWrite`), keeping the cells in rising order. -/
def Memory.write (m : Memory) (a : Nat) (b : Byte) : Memory :=
  match m with
  | [] => [(a, b)]
  | (k, v) :: rest =>
    if a < k then (a, b) :: (k, v) :: rest
    else if a = k then (a, b) :: rest
    else (k, v) :: Memory.write rest a b

/-- The canonical form of a memory: indices strictly rising. (An unlisted cell reads as no value, so no
entry can equal what an unlisted cell reads as.) -/
abbrev Memory.wf (m : Memory) : Prop := m.Pairwise (fun x y => x.1 < y.1)

/-- Every listed cell has an index below `n`. -/
abbrev Memory.below (m : Memory) (n : Nat) : Prop := ∀ c ∈ m, c.1 < n

/-- Do something only while the unit is in `BODY`. `PUT` and `END` act only there (`41_encoder.md` R86,
`42_decoder.md` R100), and since `raise` leaves `BODY`, "the command then ends" (`60_exceptions.md` R134)
is what this says of each later line of a command (log 13). -/
def FrameUnit.inBody (f : FrameUnit → FrameUnit) (u : FrameUnit) : FrameUnit :=
  if u.state = .body then f u else u

/-- Taking an error, `raise <Error>` (`60_exceptions.md` R134): the state goes to `ERR` and the error code
is recorded; no other register or cell changes and nothing is saved. -/
def FrameUnit.raise (e : ErrorKind) (u : FrameUnit) : FrameUnit :=
  { u with state := .err, err := e.errorCode }

/-- The common lines of `ENC.START` and `DEC.START` (`41_encoder.md` R83, `42_decoder.md` R97): load the
capacity, clear, enter `BODY`. The only way out of `ERR` besides reset (`60_exceptions.md` R139). -/
def FrameUnit.begin (cap : Cap) (u : FrameUnit) : FrameUnit :=
  { u with cap := cap, len := 0, crc := 0x00, err := .none, state := .body }

/-- The one-byte write at the write index, and the increment of the index (`20_memory.md` R32). -/
def FrameUnit.store (v : Byte) (u : FrameUnit) : FrameUnit :=
  { u with buf := Memory.write u.buf u.len.toNat v, len := u.len + 1 }

/-- Update the running CRC with a byte (`41_encoder.md` R84, `42_decoder.md` R96). -/
def FrameUnit.accumulate (v : Byte) (u : FrameUnit) : FrameUnit :=
  { u with crc := crcByte u.crc v }

/-- The capacity check that comes before every write (`41_encoder.md` R81, `42_decoder.md` R96); the test
is the spec's `len == cap` (log 18). -/
def FrameUnit.ifRoom (f : FrameUnit → FrameUnit) (u : FrameUnit) : FrameUnit :=
  if u.len = u.cap then u.raise .capacityExceeded else f u

/-- `enc_emit(v)` (`41_encoder.md` R81). -/
def FrameUnit.encEmit (v : Byte) (u : FrameUnit) : FrameUnit :=
  u.inBody fun u => u.ifRoom fun u => u.store v

/-- `enc_emit` of each byte, first to last, stopping at the first that raises (`41_encoder.md` R82). -/
def FrameUnit.encEmitAll (vs : List Byte) (u : FrameUnit) : FrameUnit :=
  vs.foldl (fun u v => u.encEmit v) u

/-- `enc_emit_escaped(b)` (`41_encoder.md` R82). -/
def FrameUnit.encEmitEscaped (c : ReservedBytes) (b : Byte) (u : FrameUnit) : FrameUnit :=
  u.encEmitAll (escape c b)

/-- `dec_emit(v)` (`42_decoder.md` R96). -/
def FrameUnit.decEmit (v : Byte) (u : FrameUnit) : FrameUnit :=
  u.inBody fun u => u.ifRoom fun u => (u.store v).accumulate v

/-- A frame ends with success (`41_encoder.md` R85, `42_decoder.md` R99: state `DONE`). -/
def FrameUnit.finish (u : FrameUnit) : FrameUnit := { u with state := .done }

/-- Drop the trailer from the length (`42_decoder.md` R99, step 3). -/
def FrameUnit.dropTrailer (u : FrameUnit) : FrameUnit := { u with len := u.len - 1 }

/-- Write `crc`. -/
def State.setCrc (v : Byte) (s : State) : State := { s with crc := v }

/-- Write the ENC unit. -/
def State.setEnc (u : FrameUnit) (s : State) : State := { s with enc := u }

/-- Write the DEC unit. -/
def State.setDec (u : FrameUnit) (s : State) : State := { s with dec := u }

/-- Write `dec_esc`. -/
def State.setDecEsc (v : Bool) (s : State) : State := { s with decEsc := v }

/-- The unit that owns a buffer space (`20_memory.md` R30). -/
def State.frameUnit (s : State) : Space → FrameUnit
  | .out => s.enc
  | .msg => s.dec

/-- The state once the block has taken the oldest host input, `rest` being what still waits. -/
def State.takeInput (rest : List HostInput) (s : State) : State :=
  { s with port := rest, draws := s.draws + 1 }

/-- The registers of a unit on reset (`10_state.md` R25); the buffer is not cleared
(`70_reset_and_hazards.md` R151). -/
def FrameUnit.resetRegisters (u : FrameUnit) : FrameUnit := { FrameUnit.atReset with buf := u.buf }

/-- The external reset event (`70_reset_and_hazards.md` R150, R151): every register takes its reset value;
the configuration and the buffers are not affected. -/
def State.externalReset (s : State) : State :=
  { s with crc := 0x00, enc := s.enc.resetRegisters, dec := s.dec.resetRegisters, decEsc := false }

/-- A `START` whose capacity the platform's buffer cannot hold is refused (`20_memory.md` R40,
`93_implementation_defined.md` U7). -/
def State.ifFits (s : State) (sp : Space) (cap : Cap) (t : State) : Host.Outcome State Fault Refusal :=
  if cap.toNat ≤ s.cfg.size sp then .next t else .refused (.capacityBeyondBuffer sp cap)

end Sys2Proof.Machine
end

