-- ==== Sys2Proof/Machine/Crc.lean ====
section
/-! DEFINITION. The commands of the CRC unit (`40_crc.md` R74, R75). Neither can fail, in any state. -/

namespace Sys2Proof.Machine

/-- `CRC.CLR` (`40_crc.md` R74). -/
def execCrcClr (s : State) : Host.Outcome State Fault Refusal := .next (s.setCrc 0x00)

/-- `CRC.UPD imm8` (`40_crc.md` R75). -/
def execCrcUpd (imm8 : Byte) (s : State) : Host.Outcome State Fault Refusal :=
  .next (s.setCrc (crcByte s.crc imm8))

end Sys2Proof.Machine
end

