-- ==== Sys2Proof/Machine/Decoder.lean ====
section
/-! DEFINITION. The commands of the DEC unit (`42_decoder.md` R97 to R100). -/

namespace Sys2Proof.Machine

/-- `DEC.START cap` (`42_decoder.md` R97): accepted in every state of DEC; no error for any `cap`. -/
def execDecStart (cap : Cap) (s : State) : Host.Outcome State Fault Refusal :=
  s.ifFits .msg cap ((s.setDec (s.dec.begin cap)).setDecEsc false)

/-- The registers and the buffer of DEC after it takes a byte in `BODY` (`42_decoder.md` R98): a
continuation byte is examined before anything is written (D14); an `ESC` writes nothing yet. -/
def FrameUnit.decTake (c : ReservedBytes) (pending : Bool) (imm8 : Byte) (u : FrameUnit) : FrameUnit :=
  if pending then
    match continuation c imm8 with
    | some v => u.decEmit v
    | none => u.raise .malformedEscape
  else if imm8 = c.esc then u
  else u.decEmit imm8

/-- `DEC.PUT imm8` (`42_decoder.md` R98). -/
def execDecPut (imm8 : Byte) (s : State) : Host.Outcome State Fault Refusal :=
  if s.dec.state = .body then
    .next ((s.setDec (s.dec.decTake s.cfg.bytes s.decEsc imm8)).setDecEsc (pendingAfter s.cfg.bytes s.decEsc imm8))
  else .next s

/-- The registers of DEC after the end of the input (`42_decoder.md` R99): the three tests in the rule's
order, then the trailer is dropped from the length and the frame is done. -/
def FrameUnit.decFinish (pending : Bool) (u : FrameUnit) : FrameUnit :=
  if pending then u.raise .malformedEscape
  else if u.len = 0 then u.raise .malformedEscape
  else if u.crc ≠ 0x00 then u.raise .checksumMismatch
  else u.dropTrailer.finish

/-- `DEC.END` (`42_decoder.md` R99). -/
def execDecEnd (s : State) : Host.Outcome State Fault Refusal :=
  .next (s.setDec (s.dec.inBody (FrameUnit.decFinish s.decEsc)))

end Sys2Proof.Machine
end

