-- ==== Sys2Proof/Machine/Encoder.lean ====
section
/-! DEFINITION. The commands of the ENC unit (`41_encoder.md` R83 to R86). -/

namespace Sys2Proof.Machine

/-- `ENC.START cap` (`41_encoder.md` R83): accepted in every state of ENC; raises `CapacityExceeded`
exactly when `cap == 0`. -/
def execEncStart (cap : Cap) (s : State) : Host.Outcome State Fault Refusal :=
  s.ifFits .out cap (s.setEnc ((s.enc.begin cap).encEmit s.cfg.bytes.delim))

/-- `ENC.PUT imm8` (`41_encoder.md` R84): the running CRC first, then the escaped write (D32). -/
def execEncPut (imm8 : Byte) (s : State) : Host.Outcome State Fault Refusal :=
  .next (s.setEnc (s.enc.inBody fun u => (u.accumulate imm8).encEmitEscaped s.cfg.bytes imm8))

/-- `ENC.END` (`41_encoder.md` R85): the escaped checksum, the trailing delimiter, `DONE`. -/
def execEncEnd (s : State) : Host.Outcome State Fault Refusal :=
  .next (s.setEnc (s.enc.inBody fun u =>
    ((u.encEmitEscaped s.cfg.bytes u.crc).encEmit s.cfg.bytes.delim).inBody FrameUnit.finish))

end Sys2Proof.Machine
end

