-- ==== Sys2Proof/Machine/Dispatch.lean ====
section
/-! DEFINITION. One arm per command (`30_encoding.md` R53). -/

namespace Sys2Proof.Machine

def exec (i : Instr) (s : State) : Host.Outcome State Fault Refusal :=
  match i with
  | .crcClr => Sys2Proof.Machine.execCrcClr s
  | .crcUpd imm8 => Sys2Proof.Machine.execCrcUpd imm8 s
  | .encStart cap => Sys2Proof.Machine.execEncStart cap s
  | .encPut imm8 => Sys2Proof.Machine.execEncPut imm8 s
  | .encEnd => Sys2Proof.Machine.execEncEnd s
  | .decStart cap => Sys2Proof.Machine.execDecStart cap s
  | .decPut imm8 => Sys2Proof.Machine.execDecPut imm8 s
  | .decEnd => Sys2Proof.Machine.execDecEnd s

end Sys2Proof.Machine
end

