-- ==== Sys2Proof/Machine/Macros.lean ====
section
/-! DEFINITION. Running command sequences, and the pseudo-instructions as the sequences they expand to
(`30_encoding.md` R59, R60, `43_frame_macros.md`). -/

namespace Sys2Proof.Machine

/-- Commands performed one after another, each whole before the next (`20_memory.md` R41). -/
def execAll : List Instr → State → Host.Outcome State Fault Refusal
  | [], s => .next s
  | i :: is, s =>
    match exec i s with
    | .next t => execAll is t
    | .fault r => .fault r
    | .refused r => .refused r

/-- A pseudo-instruction is its expansion (`43_frame_macros.md` R115 to R118). -/
def execPseudo (p : Pseudo) (s : State) : Host.Outcome State Fault Refusal := execAll p.expand s

/-- The host presents the words of a command sequence on the port, in order, before anything that waits
there. -/
def State.present (is : List Instr) (s : State) : State :=
  { s with port := is.map (fun i => .command (encode i)) ++ s.port }

end Sys2Proof.Machine
end

