-- ==== Sys2Proof/Machine/Observe.lean ====
section
/-! DEFINITION. What the host observes between commands (`10_state.md` R22, `20_memory.md` R33). Nothing
here changes the state: a host read has no side effect (R33, R39). -/

namespace Sys2Proof.Machine

/-- The outputs of the block (`10_state.md` R22). -/
structure Outputs where
  crcVal : Byte
  crcZero : Bool
  encState : BitVec 2
  encErr : BitVec 2
  encLen : Cap
  decState : BitVec 2
  decErr : BitVec 2
  decLen : Cap
deriving DecidableEq, Repr

/-- A length output (`10_state.md` R14, R22): the length register in `DONE`, where it is the result, and in
`IDLE`, where R25 gives it as 0 (log 20); in `BODY` and `ERR` a free value
(`93_implementation_defined.md` U3; log 9). -/
def State.lenOutput (s : State) (sp : Space) : Cap :=
  match (s.frameUnit sp).state with
  | .idle => (s.frameUnit sp).len
  | .body => Config.unspecifiedLen s.draws sp
  | .done => (s.frameUnit sp).len
  | .err => Config.unspecifiedLen s.draws sp

/-- The observation of `10_state.md` R22 and R27. -/
def observe (s : State) : Outputs :=
  { crcVal := s.crc
    crcZero := crcZero s.crc
    encState := s.enc.state.code
    encErr := s.enc.err.code
    encLen := s.lenOutput .out
    decState := s.dec.state.code
    decErr := s.dec.err.code
    decLen := s.lenOutput .msg }

/-- The value of a host read of an existing cell (`20_memory.md` R33): the stored byte when the unit is in
`DONE` and the index is below the length output; in every other case of the table a free value
(`93_implementation_defined.md` U1, U2, U4, U5; log 9). -/
def State.cellValue (s : State) (sp : Space) (i : Cap) : Byte :=
  if (s.frameUnit sp).state = .done ∧ i < (s.frameUnit sp).len then
    (Memory.read (s.frameUnit sp).buf i.toNat).getD (Config.unspecifiedByte s.draws sp i.toNat)
  else Config.unspecifiedByte s.draws sp i.toNat

/-- A host read of `OUT[i]` or `MSG[i]` (`20_memory.md` R33). An index at or beyond the number of cells the
platform provides does not exist (R30; log 12). -/
def hostRead (s : State) (sp : Space) (i : Cap) : Except Fault Byte :=
  if i.toNat < s.cfg.size sp then .ok (s.cellValue sp i) else .error (.noSuchCell sp i.toNat)

/-- The cells `0 .. n` of a space as the host reads them in index order (`20_memory.md` R37). DESIGN CHOICE
(log 12), unsafe beyond the real size of the space: this list form makes no fault, so at an index at or beyond
the real size, where `20_memory.md` R30 has no cell and `hostRead` faults, it gives what `cellValue` gives,
and from index 2^16 on the index wraps. For `n` at most the real size and at most 2^16 neither arises. -/
def hostReadRange (s : State) (sp : Space) (n : Nat) : List Byte :=
  (List.range n).map fun i => s.cellValue sp (BitVec.ofNat 16 i)

end Sys2Proof.Machine
end

