-- ==== Sys2Proof/Machine/Step.lean ====
section
/-! DEFINITION. One step of the block: it takes the oldest host input and performs it whole (`00_scope.md`
R7, `20_memory.md` R41). -/

namespace Sys2Proof.Machine

/-- One step. With no input waiting the block holds its state (`30_encoding.md` R58, `60_exceptions.md`
R146); the external reset is `70_reset_and_hazards.md` R150; a command word is decoded and executed, and a
reserved word is refused (`30_encoding.md` R57). -/
def step (s : State) : Host.Outcome State Fault Refusal :=
  match s.port with
  | [] => .next s
  | .reset :: rest => .next (s.takeInput rest).externalReset
  | .command cw :: rest =>
    match decode cw with
    | .ok i => exec i (s.takeInput rest)
    | .error _ => .refused (.reservedWord cw)

/-- `s` with the word `w` (its low `nbits` bits) presented on the command port before anything that already
waits there, so that the next step takes it. -/
def State.withFetchWord (s : State) (nbits w : Nat) : State :=
  { s with port := .command (BitVec.ofNat 24 (w % 2 ^ nbits)) :: s.port }

end Sys2Proof.Machine
end

