-- ==== Sys2Proof/Safety.lean ====
section
/-! DEFINITION. What a sound state of the block is: the invariants the spec states of every reachable
state (`10_state.md` R18, R19, R26; `20_memory.md` R30, R32, R33). -/

namespace Sys2Proof.Machine

/-- The invariant of one unit over a buffer of `size` real cells. -/
structure FrameUnit.Sound (size : Nat) (u : FrameUnit) : Prop where
  /-- R18: the error code is not `NONE` exactly when the state is `ERR`. -/
  errIffErr : u.err ≠ .none ↔ u.state = .err
  /-- R26: the length never passes the capacity. -/
  lenLeCap : u.len.toNat ≤ u.cap.toNat
  /-- `20_memory.md` R40: the capacity never passes the real size of the buffer. -/
  capLeSize : u.cap.toNat ≤ size
  /-- The buffer keeps its canonical form. -/
  bufWf : Memory.wf u.buf
  /-- `20_memory.md` R30, R32: only cells that exist are ever written. -/
  bufBelow : Memory.below u.buf size
  /-- `20_memory.md` R32: every cell below the length has been written. -/
  bufWritten : ∀ i, i < u.len.toNat → (Memory.read u.buf i).isSome = true
  /-- `10_state.md` R15, R25: a unit in `IDLE` has had no frame transaction since reset. -/
  idleClear : u.state = .idle → u.cap = 0 ∧ u.len = 0 ∧ u.crc = 0x00

/-- The invariant of the block. -/
structure State.Sound (s : State) : Prop where
  enc : s.enc.Sound s.cfg.outSize
  dec : s.dec.Sound s.cfg.msgSize
  /-- R18: `enc_err` is never 2 or 3. -/
  encErrKinds : s.enc.err = .none ∨ s.enc.err = .capacityExceeded
  /-- R19: `dec_esc` is 0 whenever `dec_state` is not `BODY`, except after an error. -/
  escOnlyInBody : s.decEsc = true → s.dec.state = .body ∨ s.dec.state = .err

/-- The byte an `ENC.PUT` carries; no other command carries a payload byte (`20_memory.md` R35). -/
def encPutByte : Instr → Option Byte
  | .crcClr => none
  | .crcUpd _ => none
  | .encStart _ => none
  | .encPut imm8 => some imm8
  | .encEnd => none
  | .decStart _ => none
  | .decPut _ => none
  | .decEnd => none

/-- The byte a `DEC.PUT` carries; no other command carries a frame byte (`20_memory.md` R35). -/
def decPutByte : Instr → Option Byte
  | .crcClr => none
  | .crcUpd _ => none
  | .encStart _ => none
  | .encPut _ => none
  | .encEnd => none
  | .decStart _ => none
  | .decPut imm8 => some imm8
  | .decEnd => none

/-- `ENC.START`, which begins an encode transaction (`70_reset_and_hazards.md` R157). -/
def startsEnc : Instr → Bool
  | .crcClr => false
  | .crcUpd _ => false
  | .encStart _ => true
  | .encPut _ => false
  | .encEnd => false
  | .decStart _ => false
  | .decPut _ => false
  | .decEnd => false

/-- `DEC.START`, which begins a decode transaction (`70_reset_and_hazards.md` R157). -/
def startsDec : Instr → Bool
  | .crcClr => false
  | .crcUpd _ => false
  | .encStart _ => false
  | .encPut _ => false
  | .encEnd => false
  | .decStart _ => true
  | .decPut _ => false
  | .decEnd => false

end Sys2Proof.Machine
end

