-- ==== Sys2Proof/WellFormed.lean ====
section
/-! DEFINITION. When a command is well-formed for the platform it is issued on. The operand widths of
`30_encoding.md` R55 are in the types of `Instr`; what is left to check is the host's duty of
`20_memory.md` R40: a `START` gives a capacity no greater than the real size of the buffer. -/

namespace Sys2Proof

/-- The capacity of a `START` fits the real buffer (`20_memory.md` R40); every other command is
well-formed as it stands. -/
def Instr.wellFormed (c : Config) : Instr → Bool
  | .crcClr => true
  | .crcUpd _ => true
  | .encStart cap => decide (cap.toNat ≤ c.outSize)
  | .encPut _ => true
  | .encEnd => true
  | .decStart cap => decide (cap.toNat ≤ c.msgSize)
  | .decPut _ => true
  | .decEnd => true

end Sys2Proof
end

