-- ==== Sys2Proof/Certificates/Slice0/Obligations.lean ====
section
/-! DEFINITION. The statements for the provers. A rule the spec itself marks "derived" is named in the
docstring of its statement as the spec's own inference. Where a statement speaks of `Memory.read`, it is
about the cells the block writes (`20_memory.md` R32), not about what a host may rely on reading. -/

open Sys2Proof Sys2Proof.Machine

/-! ### Decoding and encoding -/

/-- Words of `95_test_vectors.md` section 7, each written out from the spec's encoding (R54 to R57): three
of each unit and the reserved ones. -/
def Obligations.VectorWordsDecode : Prop :=
  decode 0x100000 = .ok .crcClr ∧ decode 0x1100F4 = .ok (.crcUpd 0xF4) ∧
  decode 0x20FFFF = .ok (.encStart 0xFFFF) ∧ decode 0x2100DE = .ok (.encPut 0xDE) ∧
  decode 0x220000 = .ok .encEnd ∧ decode 0x300006 = .ok (.decStart 6) ∧
  decode 0x3100FF = .ok (.decPut 0xFF) ∧ decode 0x320000 = .ok .decEnd ∧
  decode 0x000000 = .error .reservedUnit ∧ decode 0x120000 = .error .reservedFunction ∧
  decode 0x210100 = .error .operandNotByte ∧ decode 0x220001 = .error .operandNotZero

/-- Decoding an encoded command gives it back, for every command and every operand value (`30_encoding.md`
R54 to R56). -/
def Obligations.DecodeOfEncodeIsTheCommand : Prop := ∀ i : Instr, decode (encode i) = .ok i

/-- A word that decodes to a command is that command's encoding, so no two words mean the same command
(`30_encoding.md` R55 to R57). -/
def Obligations.EncodeOfDecodeIsTheWord : Prop :=
  ∀ (cw : CommandWord) (i : Instr), decode cw = .ok i → encode i = cw

/-- `30_encoding.md` R56: a word is the command of a row exactly when its masked bits are the row's
`match`, with the operand in the pattern's `i` or `c` bits; the rows are disjoint. -/
def Obligations.OpcodeMapByMatchAndMask : Prop :=
  ∀ cw : CommandWord,
    (decode cw = .ok .crcClr ↔ cw &&& 0xFFFFFF = 0x100000) ∧
    (∀ b, decode cw = .ok (.crcUpd b) ↔ cw &&& 0xFFFF00 = 0x110000 ∧ cw.extractLsb' 0 8 = b) ∧
    (∀ c, decode cw = .ok (.encStart c) ↔ cw &&& 0xFF0000 = 0x200000 ∧ cw.extractLsb' 0 16 = c) ∧
    (∀ b, decode cw = .ok (.encPut b) ↔ cw &&& 0xFFFF00 = 0x210000 ∧ cw.extractLsb' 0 8 = b) ∧
    (decode cw = .ok .encEnd ↔ cw &&& 0xFFFFFF = 0x220000) ∧
    (∀ c, decode cw = .ok (.decStart c) ↔ cw &&& 0xFF0000 = 0x300000 ∧ cw.extractLsb' 0 16 = c) ∧
    (∀ b, decode cw = .ok (.decPut b) ↔ cw &&& 0xFFFF00 = 0x310000 ∧ cw.extractLsb' 0 8 = b) ∧
    (decode cw = .ok .decEnd ↔ cw &&& 0xFFFFFF = 0x320000) ∧
    ∀ o o' : Op, o ≠ o' → ¬(cw &&& o.maskWord = o.matchWord ∧ cw &&& o'.maskWord = o'.matchWord)

/-- `30_encoding.md` R57: a word that matches no row is reserved, the decoder answers "invalid" and the
machine refuses it; the reserved words are those of the rule's list, 0x000000 and 0xFFFFFF among them. -/
def Obligations.ReservedWordsAreRefused : Prop :=
  (∀ cw : CommandWord, (∀ o : Op, cw &&& o.maskWord ≠ o.matchWord) →
    (∃ e, decode cw = .error e) ∧
    ∀ (s : State) (rest : List HostInput), s.port = .command cw :: rest → step s = .refused (.reservedWord cw)) ∧
  (∀ cw : CommandWord, (∀ o : Op, cw &&& o.maskWord ≠ o.matchWord) ↔
    (cw.extractLsb' 20 4 ≠ 1 ∧ cw.extractLsb' 20 4 ≠ 2 ∧ cw.extractLsb' 20 4 ≠ 3) ∨
    (cw.extractLsb' 20 4 = 1 ∧ 2 ≤ (cw.extractLsb' 16 4).toNat) ∨
    ((cw.extractLsb' 20 4 = 2 ∨ cw.extractLsb' 20 4 = 3) ∧ 3 ≤ (cw.extractLsb' 16 4).toNat) ∨
    ((cw.extractLsb' 16 8 = 0x11 ∨ cw.extractLsb' 16 8 = 0x21 ∨ cw.extractLsb' 16 8 = 0x31) ∧
      cw.extractLsb' 8 8 ≠ 0) ∨
    ((cw.extractLsb' 16 8 = 0x10 ∨ cw.extractLsb' 16 8 = 0x22 ∨ cw.extractLsb' 16 8 = 0x32) ∧
      cw.extractLsb' 0 16 ≠ 0)) ∧
  (∀ o : Op, (0x000000 : CommandWord) &&& o.maskWord ≠ o.matchWord) ∧
  ∀ o : Op, (0xFFFFFF : CommandWord) &&& o.maskWord ≠ o.matchWord

/-- `30_encoding.md` R61: at every CAPW the word has `8 + max(CAPW, 8)` bits and decoding gives back the
row and operand that were encoded; a word of that size that decodes has an operand that fits and is its
encoding, so a word whose operand bits do not fit is refused; at CAPW 16 this is the machine's decoder. -/
def Obligations.CommandWordAtEveryWidth : Prop :=
  (∀ (capw : Nat) (o : Op) (operand : Nat), operandFits capw o.form operand = true →
    encodeAt capw o operand < 2 ^ (8 + max capw 8) ∧
    decodeAt capw (encodeAt capw o operand) = .ok (o, operand)) ∧
  (∀ (capw w : Nat) (o : Op) (operand : Nat), w < 2 ^ (8 + max capw 8) →
    decodeAt capw w = .ok (o, operand) → operandFits capw o.form operand = true ∧ encodeAt capw o operand = w) ∧
  (∀ (capw : Nat) (o : Op) (arg : Nat), arg < 2 ^ max capw 8 → operandFits capw o.form arg = false →
    ∃ e, decodeAt capw (encodeAt capw o arg) = .error e) ∧
  ∀ (cw : CommandWord) (i : Instr),
    decode cw = .ok i ↔ decodeAt 16 cw.toNat = .ok (i.op, i.arg.toNat)

/-! ### Steps, reset and the whole machine -/

/-- When the word at the port decodes to a command, a step is that command performed on the state in which
the word has been taken (the port moves on, and the model's own draw counter, log 9). -/
def Obligations.StepRunsTheDecodedCommand : Prop :=
  ∀ (s : State) (cw : CommandWord) (i : Instr) (rest : List HostInput),
    s.port = .command cw :: rest → decode cw = .ok i →
      step s = exec i { s with port := rest, draws := s.draws + 1 }

/-- With no input waiting, a step leaves the state as it is: "A moment with no command is simply no step of
the block" (`30_encoding.md` R58); the port is the model's own (log 5). -/
def Obligations.NoInputHoldsTheState : Prop := ∀ s : State, s.port = [] → step s = .next s

/-- The external reset (`70_reset_and_hazards.md` section 1) gives every register its reset value, leaves the
build-time constants, does not clear the buffers and leaves every cell unspecified to the host. The model's
own choices here: the reset is an input of the port (log 6), the stored cells are kept (log 11), and a read
of an unspecified cell is a free value (log 9). -/
def Obligations.ExternalResetClearsRegistersOnly : Prop :=
  ∀ (s : State) (rest : List HostInput), s.port = .reset :: rest →
    ∃ t, step s = .next t ∧ t.cfg = s.cfg ∧ t.crc = 0x00 ∧
      t.enc = { state := .idle, err := .none, cap := 0, len := 0, crc := 0x00, buf := s.enc.buf } ∧
      t.dec = { state := .idle, err := .none, cap := 0, len := 0, crc := 0x00, buf := s.dec.buf } ∧
      t.decEsc = false ∧
      ∀ (sp : Space) (i : Cap), t.cellValue sp i = Config.unspecifiedByte t.draws sp i.toNat

/-- The table of reset values (`10_state.md` R25) and the outputs it gives. The configured constants and the
values of unspecified cells are free values in the model's own form (log 2, log 9). That the length outputs
are 0 in `IDLE` is the model's choice (log 20): U3 would let them be any value. -/
def Obligations.ResetValues : Prop :=
  State.reset.crc = 0x00 ∧
  (State.reset.enc.crc = 0x00 ∧ State.reset.enc.cap = 0 ∧ State.reset.enc.len = 0 ∧
    State.reset.enc.state = .idle ∧ State.reset.enc.err = .none) ∧
  (State.reset.dec.crc = 0x00 ∧ State.reset.dec.cap = 0 ∧ State.reset.dec.len = 0 ∧
    State.reset.dec.state = .idle ∧ State.reset.dec.err = .none ∧ State.reset.decEsc = false) ∧
  State.reset.cfg.bytes = ReservedBytes.built ∧
  (∀ (sp : Space) (i : Cap),
    State.reset.cellValue sp i = Config.unspecifiedByte State.reset.draws sp i.toNat) ∧
  observe State.reset =
    { crcVal := 0x00, crcZero := true, encState := 0, encErr := 0, encLen := 0, decState := 0, decErr := 0, decLen := 0 }

/-- The invariant of the block holds after reset (the spec's own inferences `10_state.md` R18 and R26). -/
def Obligations.ResetIsSound : Prop := State.reset.Sound

/-- Every step keeps the invariant of the block: the error code is `NONE` exactly outside `ERR`, `enc_err`
is never 2 or 3, lengths never pass capacities, capacities never pass the real buffers, the buffers keep
their canonical form inside their spaces (the spec's own inferences `10_state.md` R18 and R26). -/
def Obligations.EveryStepKeepsSound : Prop :=
  ∀ s t : State, s.Sound → step s = .next t → t.Sound

/-- "Every command is one atomic step that always completes" (`70_reset_and_hazards.md` R165): a command
answers a next state in every state, but for a `START` whose capacity the real buffer cannot hold
(`20_memory.md` R40), and no step ever faults. -/
def Obligations.EveryCommandCompletes : Prop :=
  (∀ (i : Instr) (s : State), i.wellFormed s.cfg = true → ∃ t, exec i s = .next t) ∧
  (∀ (i : Instr) (s : State), (∃ t, exec i s = .next t) →
    (∀ cap, i = .encStart cap → cap.toNat ≤ s.cfg.outSize) ∧
    (∀ cap, i = .decStart cap → cap.toNat ≤ s.cfg.msgSize)) ∧
  ∀ (s : State) (r : Fault), step s ≠ .fault r

/-- A `START` with a capacity above the real size of the buffer is refused (`20_memory.md` R40,
`93_implementation_defined.md` U7; log 4). -/
def Obligations.StartBeyondTheBufferIsRefused : Prop :=
  ∀ (cap : Cap) (s : State),
    (s.cfg.outSize < cap.toNat → exec (.encStart cap) s = .refused (.capacityBeyondBuffer .out cap)) ∧
    (s.cfg.msgSize < cap.toNat → exec (.decStart cap) s = .refused (.capacityBeyondBuffer .msg cap))

/-- `00_scope.md` R4 and R5: the four reserved byte values are pairwise different, and no step changes the
configuration. -/
def Obligations.ConfigurationIsValidAndConstant : Prop :=
  (∀ c : ReservedBytes, c.delim ≠ c.esc ∧ c.delim ≠ c.escDelim ∧ c.delim ≠ c.escEsc ∧
    c.esc ≠ c.escDelim ∧ c.esc ≠ c.escEsc ∧ c.escDelim ≠ c.escEsc) ∧
  ∀ s t : State, step s = .next t → t.cfg = s.cfg

/-- `00_scope.md` R8: a command writes only its own unit, reads only its own unit and the configuration,
and two commands addressed to different units commute. -/
def Obligations.UnitsShareNoState : Prop :=
  (∀ (i : Instr) (s t : State), exec i s = .next t →
    t.cfg = s.cfg ∧ (i.component ≠ .crc → t.crc = s.crc) ∧ (i.component ≠ .enc → t.enc = s.enc) ∧
    (i.component ≠ .dec → t.dec = s.dec ∧ t.decEsc = s.decEsc)) ∧
  (∀ (i : Instr) (s s' t : State), s.cfg = s'.cfg → (i.component = .crc → s.crc = s'.crc) →
    (i.component = .enc → s.enc = s'.enc) → (i.component = .dec → s.dec = s'.dec ∧ s.decEsc = s'.decEsc) →
    exec i s = .next t →
    ∃ t', exec i s' = .next t' ∧ (i.component = .crc → t'.crc = t.crc) ∧ (i.component = .enc → t'.enc = t.enc) ∧
      (i.component = .dec → t'.dec = t.dec ∧ t'.decEsc = t.decEsc)) ∧
  ∀ (i j : Instr) (s a b : State), i.component ≠ j.component → exec i s = .next a → exec j a = .next b →
    ∃ c, exec j s = .next c ∧ exec i c = .next b

/-- Which commands reach which buffer, and that no command reads one (the spec's own inference
`20_memory.md` R31, and R34): exchanging the buffers' contents changes no register. -/
def Obligations.BuffersAreReachedAsTheMapSays : Prop :=
  (∀ (i : Instr) (s t : State), exec i s = .next t →
    (i.component ≠ .enc → t.enc.buf = s.enc.buf) ∧ (decPutByte i = none → t.dec.buf = s.dec.buf)) ∧
  ∀ (i : Instr) (s t : State) (m m' : Memory), exec i s = .next t →
    ∃ n n' : Memory,
      exec i { s with enc := { s.enc with buf := m }, dec := { s.dec with buf := m' } } =
        .next { t with enc := { t.enc with buf := n }, dec := { t.dec with buf := n' } }

/-- A command sequence presented at the port of a block with nothing waiting runs as its commands one after
another, each whole before the next (`20_memory.md` R41); the port and the draw counter are the model's
own (log 5, log 9). -/
def Obligations.PresentedProgramRunsInOrder : Prop :=
  ∀ (is : List Instr) (s : State), s.port = [] →
    Host.Core.run Sys2Proof.core is.length (s.present is) =
      match execAll is s with
      | .next t => .next { t with draws := s.draws + is.length }
      | .fault r => .fault r
      | .refused r => .refused r

/-! ### The CRC unit -/

/-- The worked values of `40_crc.md` R65 to R68 and of `95_test_vectors.md` section 3. -/
def Obligations.CrcWorkedExamples : Prop :=
  crcShift1 0x00 = 0x00 ∧ crcShift1 0x80 = 0x07 ∧ crcShift1 0x40 = 0x80 ∧ crcShift1 0xFF = 0xF9 ∧
  crcShift1 0x81 = 0x05 ∧ crcByte 0x00 0x31 = 0x97 ∧ crcByte 0x97 0x32 = 0x72 ∧ crcByte 0xFF 0xFF = 0x00 ∧
  crcCalc [] = 0x00 ∧ crcCalc [0x31, 0x32, 0x33, 0x34, 0x35, 0x36, 0x37, 0x38, 0x39] = 0xF4 ∧
  crcCalc [0xDE, 0xAD, 0x00, 0xBE, 0xEF] = 0x24

/-- A byte exclusive-ored into its own value clears the register, and every sequence followed by its
checksum verifies (the spec's own inference `40_crc.md` R70). -/
def Obligations.ChecksumVerifiesItself : Prop :=
  (∀ r : Byte, crcByte r r = 0x00) ∧
  ∀ d : List Byte, crcCalc (d ++ [crcCalc d]) = 0x00 ∧ verifies (d ++ [crcCalc d]) = true

/-- The bit-serial form gives the same byte step (the spec's own inference `40_crc.md` R72). -/
def Obligations.BitSerialFormAgrees : Prop := ∀ r b : Byte, crcByteSerial r b = crcByte r b

/-- Linearity, the table form, the detection of every change confined to one byte, and the blindness to
leading zero bytes (the spec's own inference `40_crc.md` R73). -/
def Obligations.CrcIsLinearAndCatchesOneByte : Prop :=
  (∀ r1 r2 b1 b2 : Byte, crcByte (r1 ^^^ r2) (b1 ^^^ b2) = crcByte r1 b1 ^^^ crcByte r2 b2) ∧
  (∀ u e : List Byte, u.length = e.length →
    crcCalc (List.zipWith (· ^^^ ·) u e) = crcCalc u ^^^ crcCalc e) ∧
  (∀ r b : Byte, crcTable[(r ^^^ b).toNat]? = some (crcByte r b)) ∧
  crcTable[0]? = some 0x00 ∧ Function.Bijective (fun b : Byte => crcByte 0x00 b) ∧
  (∀ (pre post : List Byte) (x y : Byte), x ≠ y → crcCalc (pre ++ x :: post) ≠ crcCalc (pre ++ y :: post)) ∧
  (∀ (p : List Byte) (k : Nat) (y : Byte), k < (p ++ [crcCalc p]).length → (p ++ [crcCalc p])[k]? ≠ some y →
    verifies ((p ++ [crcCalc p]).set k y) = false) ∧
  ∀ d : List Byte, crcCalc (0x00 :: d) = crcCalc d

/-- The table of the spec is the byte step from 0x00, and all its entries are different (the spec's own
inference `40_crc.md` R76). -/
def Obligations.CrcTableIsTheByteStep : Prop :=
  crcTable.length = 256 ∧ crcTable.Nodup ∧ ∀ b : Byte, crcTable[b.toNat]? = some (crcByte 0x00 b)

/-- `40_crc.md` R74 and R75: the two words; `CRC.CLR` and `CRC.UPD` complete in every state, write `crc` and
nothing else, and show the new register on their outputs; a byte equal to `crc` clears it; after a clear and
any bytes `crc` is their checksum. -/
def Obligations.CrcCommandsUpdateTheRegister : Prop :=
  ∀ (s : State) (b : Byte),
    encode .crcClr = 0x100000 ∧ encode (.crcUpd b) = 0x110000 ||| b.setWidth 24 ∧
    exec .crcClr s = .next { s with crc := 0x00 } ∧
    exec (.crcUpd b) s = .next { s with crc := crcByte s.crc b } ∧
    exec (.crcUpd s.crc) s = .next { s with crc := 0x00 } ∧ crcByte 0x00 0x00 = 0x00 ∧
    (∀ d : List Byte, execAll (.crcClr :: d.map .crcUpd) s = .next { s with crc := crcCalc d }) ∧
    (observe { s with crc := 0x00 }).crcVal = 0x00 ∧ (observe { s with crc := 0x00 }).crcZero = true ∧
    (observe { s with crc := crcByte s.crc b }).crcVal = crcByte s.crc b ∧
    ((observe { s with crc := crcByte s.crc b }).crcZero = true ↔ crcByte s.crc b = 0x00)

/-- `CALC` and `VERIFY` of a sequence, from any state, leave its checksum in `crc` and change nothing else;
`crc_zero` then says whether the sequence verifies (the spec's own inferences `43_frame_macros.md` R115,
R116). -/
def Obligations.CalcAndVerifyCompute : Prop :=
  ∀ (d : List Byte) (s : State),
    execPseudo (.crcCalc d) s = .next { s with crc := crcCalc d } ∧
    execPseudo (.crcVerify d) s = .next { s with crc := crcCalc d } ∧
    (observe { s with crc := crcCalc d }).crcZero = verifies d

/-! ### The wire format -/

/-- `30_encoding.md` R46: the escape function, and that the two continuation values pass unchanged. -/
def Obligations.EscapeMapping : Prop :=
  ∀ c : ReservedBytes,
    escape c c.delim = [c.esc, c.escDelim] ∧ escape c c.esc = [c.esc, c.escEsc] ∧
    (∀ b, b ≠ c.delim → b ≠ c.esc → escape c b = [b]) ∧
    escape c c.escDelim = [c.escDelim] ∧ escape c c.escEsc = [c.escEsc]

/-- The properties of the wire format (the spec's own inference `30_encoding.md` R50): escaping is
injective and read back exactly by the symbol table of R48; no escaped byte is `DELIM`, so a frame holds
`DELIM` at its first and last index only; every `ESC` is the first byte of a two-byte symbol. -/
def Obligations.WireFormatIsUnambiguous : Prop :=
  ∀ c : ReservedBytes,
    Function.Injective (escape c) ∧
    (∀ s : List Byte, unescape c (escaped c s) = some s) ∧
    (∀ s : List Byte, c.delim ∉ escaped c s) ∧
    (∀ (p : List Byte) (k : Nat), (wire c p)[k]? = some c.delim ↔ k = 0 ∨ k + 1 = (wire c p).length) ∧
    ∀ s pre post : List Byte, escaped c s = pre ++ c.esc :: post →
      (∃ s1 s2, s = s1 ++ c.delim :: s2 ∧ pre = escaped c s1 ∧ post = c.escDelim :: escaped c s2) ∨
      (∃ s1 s2, s = s1 ++ c.esc :: s2 ∧ pre = escaped c s1 ∧ post = c.escEsc :: escaped c s2)

/-- The length of a frame and its bounds, when they are met, and the empty payload (the spec's own
inference `30_encoding.md` R51, which corrects the source: `90_conflicts.md` C1, C2). -/
def Obligations.FrameLengthAndBounds : Prop :=
  ∀ (c : ReservedBytes) (p : List Byte),
    (wire c p).length = frameLen c p ∧
    p.length + 3 ≤ frameLen c p ∧ frameLen c p ≤ 2 * p.length + 4 ∧
    ((∀ b ∈ p ++ [crcCalc p], b ≠ c.delim ∧ b ≠ c.esc) → frameLen c p = p.length + 3) ∧
    ((∀ b ∈ p ++ [crcCalc p], b = c.delim ∨ b = c.esc) → frameLen c p = 2 * p.length + 4) ∧
    (0x00 ≠ c.delim → 0x00 ≠ c.esc → wire c [] = [c.delim, 0x00, c.delim]) ∧
    (0x00 = c.delim ∨ 0x00 = c.esc → (wire c []).length = 4) ∧
    wire ReservedBytes.cfgRef [] = [0x00, 0x33, 0x34, 0x00]

/-- The capacity boundary (the spec's own inference `41_encoder.md` R92). -/
def Obligations.EncodeCapacityBoundary : Prop :=
  ∀ (c : ReservedBytes) (p : List Byte),
    encodeFrame c p (wire c p).length = .ok (wire c p) ∧
    encodeFrame c p ((wire c p).length - 1) = .error .capacityExceeded ∧
    (∀ cap, 2 * p.length + 4 ≤ cap → encodeFrame c p cap = .ok (wire c p)) ∧
    (∀ cap, cap ≤ 2 → encodeFrame c p cap = .error .capacityExceeded) ∧
    (encodeFrame c p 3 = .ok (wire c p) ↔ p = [] ∧ 0x00 ≠ c.delim ∧ 0x00 ≠ c.esc)

/-! ### The ENC unit -/

/-- `41_encoder.md` R83: the word; `ENC.START` is accepted in every state of ENC; with room for it the
delimiter is written and the unit is in `BODY`; with capacity 0 it raises `CapacityExceeded` and writes
nothing (`enc_len` is then not stated: R88 leaves it open after the error). -/
def Obligations.EncStartBeginsAFrame : Prop :=
  ∀ (cap : Cap) (s : State), cap.toNat ≤ s.cfg.outSize →
    encode (.encStart cap) = 0x200000 ||| cap.setWidth 24 ∧
    (cap ≠ 0 → exec (.encStart cap) s = .next { s with enc :=
      { state := .body, err := .none, cap := cap, len := 1, crc := 0x00,
        buf := Memory.write s.enc.buf 0 s.cfg.bytes.delim } }) ∧
    (cap = 0 → ∃ u : FrameUnit, exec (.encStart cap) s = .next { s with enc := u } ∧
      u.state = .err ∧ u.err = .capacityExceeded ∧ u.cap = 0 ∧ u.crc = 0x00 ∧ u.buf = s.enc.buf)

/-- `41_encoder.md` R84: the word; `ENC.PUT` in `BODY` updates the running CRC with the byte as given and writes its
escaped form at the write index; it raises `CapacityExceeded` when a write does not fit; outside `BODY` it
changes nothing. The premise on `enc_len` is the invariant `EveryStepKeepsSound` keeps. -/
def Obligations.EncPutWritesTheEscapedByte : Prop :=
  ∀ (b : Byte) (s : State),
    encode (.encPut b) = 0x210000 ||| b.setWidth 24 ∧
    (s.enc.state ≠ .body → exec (.encPut b) s = .next s) ∧
    (s.enc.state = .body → s.enc.len.toNat ≤ s.enc.cap.toNat →
      ∃ u : FrameUnit, exec (.encPut b) s = .next { s with enc := u } ∧
        u.crc = crcByte s.enc.crc b ∧ u.cap = s.enc.cap ∧
        (s.enc.len.toNat + (escape s.cfg.bytes b).length ≤ s.enc.cap.toNat →
          u.state = .body ∧ u.err = s.enc.err ∧
          u.len.toNat = s.enc.len.toNat + (escape s.cfg.bytes b).length ∧
          (∀ k, k < (escape s.cfg.bytes b).length →
            Memory.read u.buf (s.enc.len.toNat + k) = (escape s.cfg.bytes b)[k]?) ∧
          ∀ a, a < s.enc.len.toNat ∨ s.enc.len.toNat + (escape s.cfg.bytes b).length ≤ a →
            Memory.read u.buf a = Memory.read s.enc.buf a) ∧
        (s.enc.cap.toNat < s.enc.len.toNat + (escape s.cfg.bytes b).length →
          u.state = .err ∧ u.err = .capacityExceeded))

/-- `41_encoder.md` R85: the word; `ENC.END` in `BODY` writes the escaped checksum and the trailing delimiter and
ends in `DONE` with the total length, or raises `CapacityExceeded` when a write does not fit; outside
`BODY` it changes nothing. The premises are invariants `EveryStepKeepsSound` keeps. -/
def Obligations.EncEndWritesChecksumAndDelimiter : Prop :=
  ∀ s : State,
    encode .encEnd = 0x220000 ∧
    (s.enc.state ≠ .body → exec .encEnd s = .next s) ∧
    (s.enc.state = .body → s.enc.err = .none → s.enc.len.toNat ≤ s.enc.cap.toNat →
      ∃ u : FrameUnit, exec .encEnd s = .next { s with enc := u } ∧ u.crc = s.enc.crc ∧ u.cap = s.enc.cap ∧
        (s.enc.len.toNat + (escape s.cfg.bytes s.enc.crc ++ [s.cfg.bytes.delim]).length ≤ s.enc.cap.toNat →
          u.state = .done ∧ u.err = .none ∧
          u.len.toNat = s.enc.len.toNat + (escape s.cfg.bytes s.enc.crc ++ [s.cfg.bytes.delim]).length ∧
          (∀ k, k < (escape s.cfg.bytes s.enc.crc ++ [s.cfg.bytes.delim]).length →
            Memory.read u.buf (s.enc.len.toNat + k) =
              (escape s.cfg.bytes s.enc.crc ++ [s.cfg.bytes.delim])[k]?) ∧
          ∀ a, a < s.enc.len.toNat ∨
              s.enc.len.toNat + (escape s.cfg.bytes s.enc.crc ++ [s.cfg.bytes.delim]).length ≤ a →
            Memory.read u.buf a = Memory.read s.enc.buf a) ∧
        (s.enc.cap.toNat < s.enc.len.toNat + (escape s.cfg.bytes s.enc.crc ++ [s.cfg.bytes.delim]).length →
          u.state = .err ∧ u.err = .capacityExceeded))

/-- `41_encoder.md` R86, the transition table of ENC, for states `IDLE`, `BODY`, `DONE` and `ERR`. The
premise on `enc_len` is the invariant `EveryStepKeepsSound` keeps. -/
def Obligations.EncTransitions : Prop :=
  ∀ s : State,
    (∀ (cap : Cap) (t : State), exec (.encStart cap) s = .next t →
      t.enc.state = if cap = 0 then .err else .body) ∧
    (s.enc.state = .body → s.enc.len.toNat ≤ s.enc.cap.toNat →
      (∀ b, ∃ t, exec (.encPut b) s = .next t ∧ t.enc.state =
        if s.enc.cap.toNat < s.enc.len.toNat + (escape s.cfg.bytes b).length then .err else .body) ∧
      ∃ t, exec .encEnd s = .next t ∧ t.enc.state =
        if s.enc.cap.toNat < s.enc.len.toNat + (escape s.cfg.bytes s.enc.crc ++ [s.cfg.bytes.delim]).length
        then .err else .done) ∧
    (s.enc.state = .idle ∨ s.enc.state = .done ∨ s.enc.state = .err →
      (∀ b, exec (.encPut b) s = .next s) ∧ exec .encEnd s = .next s)

/-- The frame of the three ENC commands, on every path: they change only the ENC unit; `PUT` and `END` keep
the capacity, `END` keeps the running CRC; and the only cells of `OUT` that change are those from the write
index on, as many as the command writes, below the capacity (`20_memory.md` R32; `START` writes cell 0). -/
def Obligations.EncFrame : Prop :=
  (∀ (cap : Cap) (s t : State), exec (.encStart cap) s = .next t →
    t = { s with enc := t.enc } ∧ t.enc.cap = cap ∧
    ∀ a, a ≠ 0 ∨ cap = 0 → Memory.read t.enc.buf a = Memory.read s.enc.buf a) ∧
  (∀ (b : Byte) (s t : State), s.enc.len.toNat ≤ s.enc.cap.toNat → exec (.encPut b) s = .next t →
    t = { s with enc := t.enc } ∧ t.enc.cap = s.enc.cap ∧
    ∀ a, s.enc.state ≠ .body ∨ a < s.enc.len.toNat ∨ s.enc.cap.toNat ≤ a ∨
        s.enc.len.toNat + (escape s.cfg.bytes b).length ≤ a →
      Memory.read t.enc.buf a = Memory.read s.enc.buf a) ∧
  ∀ s t : State, s.enc.len.toNat ≤ s.enc.cap.toNat → exec .encEnd s = .next t →
    t = { s with enc := t.enc } ∧ t.enc.cap = s.enc.cap ∧ t.enc.crc = s.enc.crc ∧
    ∀ a, s.enc.state ≠ .body ∨ a < s.enc.len.toNat ∨ s.enc.cap.toNat ≤ a ∨
        s.enc.len.toNat + (escape s.cfg.bytes s.enc.crc ++ [s.cfg.bytes.delim]).length ≤ a →
      Memory.read t.enc.buf a = Memory.read s.enc.buf a

/-- After any command sequence that begins with an `ENC.START` and holds no other, from any state, no cell
of `OUT` at or beyond the capacity has been written (the spec's own inference `41_encoder.md` R89, the
source's primary safety invariant). -/
def Obligations.EncNeverWritesPastTheCapacity : Prop :=
  ∀ (cap : Cap) (cs : List Instr) (s t : State), (∀ i ∈ cs, startsEnc i = false) →
    execAll (.encStart cap :: cs) s = .next t →
    ∀ a, cap.toNat ≤ a → Memory.read t.enc.buf a = Memory.read s.enc.buf a

/-- While ENC is in `BODY`, with `q` the operands of the `ENC.PUT`s since the last `ENC.START` and commands
of the other units in between: the CRC, the length and the cells of `OUT` (the spec's own inference
`41_encoder.md` R87). -/
def Obligations.EncBodyHoldsTheEscapedPrefix : Prop :=
  ∀ (cap : Cap) (cs : List Instr) (s t : State), (∀ i ∈ cs, startsEnc i = false) →
    execAll (.encStart cap :: cs) s = .next t → t.enc.state = .body →
    t.enc.crc = crcCalc (cs.filterMap encPutByte) ∧
    t.enc.len.toNat = 1 + (escaped s.cfg.bytes (cs.filterMap encPutByte)).length ∧
    (∀ k, k < t.enc.len.toNat →
      Memory.read t.enc.buf k = ([s.cfg.bytes.delim] ++ escaped s.cfg.bytes (cs.filterMap encPutByte))[k]?) ∧
    t.enc.len.toNat ≤ t.enc.cap.toNat ∧ t.enc.cap = cap

/-- `ENCODE cap, p` from any state of the block gives exactly what the function layer's `encode` gives: on
success the wire frame in `OUT` and its length, as the host reads them; otherwise `ERR` with
`CAPACITY_EXCEEDED`; no cell at or beyond the capacity is written and nothing but ENC changes (the spec's
own inferences `41_encoder.md` R90, R91 and `43_frame_macros.md` R117). -/
def Obligations.EncodeAgreesWithTheFunction : Prop :=
  ∀ (cap : Cap) (p : List Byte) (s : State), cap.toNat ≤ s.cfg.outSize →
    ∃ t, execPseudo (.encodeFrame cap p) s = .next t ∧ t = { s with enc := t.enc } ∧
      (∀ a, cap.toNat ≤ a → Memory.read t.enc.buf a = Memory.read s.enc.buf a) ∧
      match encodeFrame s.cfg.bytes p cap.toNat with
      | .ok w => t.enc.state = .done ∧ t.enc.err = .none ∧ (observe t).encLen.toNat = w.length ∧
          w.length = frameLen s.cfg.bytes p ∧ hostReadRange t .out w.length = w
      | .error e => t.enc.state = .err ∧ t.enc.err = e.errorCode ∧ e = .capacityExceeded

/-! ### The DEC unit -/

/-- `42_decoder.md` R97: the word; `DEC.START` is accepted in every state of DEC, for every capacity, writes
the six registers and no memory. -/
def Obligations.DecStartBeginsAFrame : Prop :=
  ∀ (cap : Cap) (s : State), cap.toNat ≤ s.cfg.msgSize →
    encode (.decStart cap) = 0x300000 ||| cap.setWidth 24 ∧
    exec (.decStart cap) s = .next { s with
      dec := { state := .body, err := .none, cap := cap, len := 0, crc := 0x00, buf := s.dec.buf }
      decEsc := false }

/-- `42_decoder.md` R98 with R96 and R134: the word; `DEC.PUT` in `BODY`, by the pending escape and the byte; a
continuation is examined before the capacity; outside `BODY` nothing changes. `put v` is the state after
`dec_emit(v)`, in which the byte is stored at the write index or `CapacityExceeded` is raised. -/
def Obligations.DecPutTakesOneByte : Prop :=
  ∀ (b : Byte) (s : State),
    let put (v : Byte) : FrameUnit :=
      if s.dec.len = s.dec.cap then { s.dec with state := .err, err := .capacityExceeded }
      else { s.dec with
        buf := Memory.write s.dec.buf s.dec.len.toNat v, len := s.dec.len + 1, crc := crcByte s.dec.crc v }
    encode (.decPut b) = 0x310000 ||| b.setWidth 24 ∧
    (s.dec.state ≠ .body → exec (.decPut b) s = .next s) ∧
    (s.dec.state = .body → s.decEsc = true → b = s.cfg.bytes.escDelim →
      exec (.decPut b) s = .next { s with dec := put s.cfg.bytes.delim, decEsc := false }) ∧
    (s.dec.state = .body → s.decEsc = true → b = s.cfg.bytes.escEsc →
      exec (.decPut b) s = .next { s with dec := put s.cfg.bytes.esc, decEsc := false }) ∧
    (s.dec.state = .body → s.decEsc = true → b ≠ s.cfg.bytes.escDelim → b ≠ s.cfg.bytes.escEsc →
      exec (.decPut b) s =
        .next { s with dec := { s.dec with state := .err, err := .malformedEscape }, decEsc := false }) ∧
    (s.dec.state = .body → s.decEsc = false → b = s.cfg.bytes.esc →
      exec (.decPut b) s = .next { s with decEsc := true }) ∧
    (s.dec.state = .body → s.decEsc = false → b ≠ s.cfg.bytes.esc →
      exec (.decPut b) s = .next { s with dec := put b })

/-- `42_decoder.md` R99: the word; `DEC.END` in `BODY` tests the pending escape, the emptiness and the
checksum in that order, and on success drops the trailer from the length; outside `BODY` nothing changes.
The premise on `dec_err` is an invariant `EveryStepKeepsSound` keeps; that `MSG` then holds the payload is
`DecodeAgreesWithTheFunction`. -/
def Obligations.DecEndChecksAndFinishes : Prop :=
  ∀ s : State,
    encode .decEnd = 0x320000 ∧
    (s.dec.state ≠ .body → exec .decEnd s = .next s) ∧
    (s.dec.state = .body → s.decEsc = true →
      exec .decEnd s = .next { s with dec := { s.dec with state := .err, err := .malformedEscape } }) ∧
    (s.dec.state = .body → s.decEsc = false → s.dec.len = 0 →
      exec .decEnd s = .next { s with dec := { s.dec with state := .err, err := .malformedEscape } }) ∧
    (s.dec.state = .body → s.decEsc = false → s.dec.len ≠ 0 → s.dec.crc ≠ 0x00 →
      exec .decEnd s = .next { s with dec := { s.dec with state := .err, err := .checksumMismatch } }) ∧
    (s.dec.state = .body → s.decEsc = false → s.dec.len ≠ 0 → s.dec.crc = 0x00 → s.dec.err = .none →
      ∃ u : FrameUnit, exec .decEnd s = .next { s with dec := u } ∧ u.state = .done ∧ u.err = .none ∧
        u.len.toNat + 1 = s.dec.len.toNat ∧ u.cap = s.dec.cap ∧ u.crc = s.dec.crc ∧ u.buf = s.dec.buf)

/-- `42_decoder.md` R100, the transition table of DEC, with the error codes it names. -/
def Obligations.DecTransitions : Prop :=
  ∀ s : State,
    (∀ (cap : Cap) (t : State), exec (.decStart cap) s = .next t → t.dec.state = .body) ∧
    (s.dec.state = .body →
      (∀ b, ∃ t, exec (.decPut b) s = .next t ∧ (t.dec.state = .body ∨
        t.dec.state = .err ∧ (t.dec.err = .malformedEscape ∨ t.dec.err = .capacityExceeded))) ∧
      ∃ t, exec .decEnd s = .next t ∧ (t.dec.state = .done ∨
        t.dec.state = .err ∧ (t.dec.err = .malformedEscape ∨ t.dec.err = .checksumMismatch))) ∧
    (s.dec.state = .idle ∨ s.dec.state = .done ∨ s.dec.state = .err →
      (∀ b, exec (.decPut b) s = .next s) ∧ exec .decEnd s = .next s)

/-- The frame of the three DEC commands, on every path: they change only the DEC unit and `dec_esc`; `PUT`
and `END` keep the capacity; `START` and `END` change no cell; `PUT` changes at most the cell at the write
index, and none when it writes nothing (`20_memory.md` R32); `END` keeps `dec_esc` and the CRC. -/
def Obligations.DecFrame : Prop :=
  (∀ (cap : Cap) (s t : State), exec (.decStart cap) s = .next t →
    t = { s with dec := t.dec, decEsc := t.decEsc } ∧
    ∀ a, Memory.read t.dec.buf a = Memory.read s.dec.buf a) ∧
  (∀ (b : Byte) (s t : State), exec (.decPut b) s = .next t →
    t = { s with dec := t.dec, decEsc := t.decEsc } ∧ t.dec.cap = s.dec.cap ∧
    ∀ a, s.dec.state ≠ .body ∨ s.dec.len = s.dec.cap ∨ a ≠ s.dec.len.toNat ∨
        (s.decEsc = false ∧ b = s.cfg.bytes.esc) ∨
        (s.decEsc = true ∧ b ≠ s.cfg.bytes.escDelim ∧ b ≠ s.cfg.bytes.escEsc) →
      Memory.read t.dec.buf a = Memory.read s.dec.buf a) ∧
  ∀ s t : State, exec .decEnd s = .next t →
    t = { s with dec := t.dec } ∧ t.dec.cap = s.dec.cap ∧ t.dec.crc = s.dec.crc ∧
    ∀ a, Memory.read t.dec.buf a = Memory.read s.dec.buf a

/-- After any command sequence that begins with a `DEC.START` and holds no other, from any state, no cell of
`MSG` at or beyond the capacity has been written (the spec's own inference `42_decoder.md` R104). -/
def Obligations.DecNeverWritesPastTheCapacity : Prop :=
  ∀ (cap : Cap) (cs : List Instr) (s t : State), (∀ i ∈ cs, startsDec i = false) →
    execAll (.decStart cap :: cs) s = .next t →
    ∀ a, cap.toNat ≤ a → Memory.read t.dec.buf a = Memory.read s.dec.buf a

/-- While DEC is in `BODY`, with `u` the bytes its `DEC.PUT`s since the last `DEC.START` unescape to: the
length, the cells of `MSG` and the running CRC (the spec's own inference `42_decoder.md` R101). -/
def Obligations.DecBodyHoldsTheUnescapedPrefix : Prop :=
  ∀ (cap : Cap) (cs : List Instr) (s t : State), (∀ i ∈ cs, startsDec i = false) →
    execAll (.decStart cap :: cs) s = .next t → t.dec.state = .body →
    ∃ u : List Byte,
      (t.decEsc = false → scan s.cfg.bytes (cs.filterMap decPutByte) cap.toNat = .ok u) ∧
      (t.decEsc = true → ∃ g, cs.filterMap decPutByte = g ++ [s.cfg.bytes.esc] ∧
        scan s.cfg.bytes g cap.toNat = .ok u) ∧
      t.dec.len.toNat = u.length ∧ t.dec.crc = crcCalc u ∧ u.length ≤ cap.toNat ∧
      ∀ k, k < u.length → Memory.read t.dec.buf k = u[k]?

/-- `DECODE cap, f` from any state of the block gives exactly what the function layer's `decode` gives: on
success the payload in `MSG` and its length, as the host reads them; otherwise `ERR` with the code of the
same error; no cell at or beyond the capacity is written and nothing but DEC changes (the spec's own
inferences `42_decoder.md` R110 and `43_frame_macros.md` R118). -/
def Obligations.DecodeAgreesWithTheFunction : Prop :=
  ∀ (cap : Cap) (f : List Byte) (s : State), cap.toNat ≤ s.cfg.msgSize →
    ∃ t, execPseudo (.decodeFrame cap f) s = .next t ∧ t = { s with dec := t.dec, decEsc := t.decEsc } ∧
      (∀ a, cap.toNat ≤ a → Memory.read t.dec.buf a = Memory.read s.dec.buf a) ∧
      match decodeFrame s.cfg.bytes f cap.toNat with
      | .ok p => t.dec.state = .done ∧ t.dec.err = .none ∧ (observe t).decLen.toNat = p.length ∧
          hostReadRange t .msg p.length = p
      | .error e => t.dec.state = .err ∧ t.dec.err = e.errorCode

/-! ### Round trip, corruption, framing mistakes -/

/-- Decoding an encoded payload gives it back when the buffer has room for it and its trailer, and fails
with `CapacityExceeded` when it has not (the spec's own inference `42_decoder.md` R111, `90_conflicts.md`
C8). -/
def Obligations.DecodeOfEncodeIsThePayload : Prop :=
  ∀ (c : ReservedBytes) (p : List Byte) (cap : Nat),
    (p.length + 1 ≤ cap → decodeFrame c (stripDelimiters (wire c p)) cap = .ok p) ∧
    (cap ≤ p.length → decodeFrame c (stripDelimiters (wire c p)) cap = .error .capacityExceeded)

/-- The machine's round trip: `ENCODE`, the host reads `OUT` and strips the delimiters, `DECODE`; the payload
stands in `MSG` (the spec's own inference `43_frame_macros.md` R120). -/
def Obligations.MachineRoundTrip : Prop :=
  ∀ (s : State) (p : List Byte) (ecap dcap : Cap), ecap.toNat ≤ s.cfg.outSize → dcap.toNat ≤ s.cfg.msgSize →
    frameLen s.cfg.bytes p ≤ ecap.toNat → p.length + 1 ≤ dcap.toNat →
    ∃ t r, execPseudo (.encodeFrame ecap p) s = .next t ∧
      execPseudo (.decodeFrame dcap (stripDelimiters (hostReadRange t .out (observe t).encLen.toNat))) t = .next r ∧
      r.enc.state = .done ∧ r.dec.state = .done ∧ (observe r).decLen.toNat = p.length ∧
      hostReadRange r .msg p.length = p

/-- One flipped bit (the spec's own inference `42_decoder.md` R112, `90_conflicts.md` C3): (a) in a one-byte
symbol that does not become `ESC`, always `ChecksumMismatch`; (b) in a continuation byte, `MalformedEscape`,
or `ChecksumMismatch` when the other continuation results; (c) a flip that unmakes an `ESC` can go
undetected, by the spec's witness. -/
def Obligations.OneFlippedBit : Prop :=
  (∀ (c : ReservedBytes) (p pre post : List Byte) (x : Byte) (k cap : Nat),
    p ++ [crcCalc p] = pre ++ x :: post → x ≠ c.delim → x ≠ c.esc → k < 8 → x ^^^ (1#8 <<< k) ≠ c.esc →
    p.length + 1 ≤ cap →
      stripDelimiters (wire c p) = escaped c pre ++ x :: escaped c post ∧
      decodeFrame c (escaped c pre ++ (x ^^^ (1#8 <<< k)) :: escaped c post) cap = .error .checksumMismatch) ∧
  (∀ (c : ReservedBytes) (p pre post : List Byte) (x y : Byte) (k cap : Nat),
    p ++ [crcCalc p] = pre ++ x :: post → escape c x = [c.esc, y] → k < 8 → p.length + 1 ≤ cap →
      stripDelimiters (wire c p) = escaped c pre ++ c.esc :: y :: escaped c post ∧
      decodeFrame c (escaped c pre ++ c.esc :: (y ^^^ (1#8 <<< k)) :: escaped c post) cap =
        .error (if y ^^^ (1#8 <<< k) = c.escDelim ∨ y ^^^ (1#8 <<< k) = c.escEsc then .checksumMismatch
          else .malformedEscape)) ∧
  (stripDelimiters (wire ReservedBytes.cfgRef [0x32, 0x00]) = [0x32, 0x33, 0x34, 0xD3] ∧
    (0x33 : Byte) ^^^ (1#8 <<< 5) = 0x13 ∧
    decodeFrame ReservedBytes.cfgRef [0x32, 0x13, 0x34, 0xD3] 4 = .ok [0x32, 0x13, 0x34])

/-- What framing mistakes the checksum cannot see (the spec's own inference `70_reset_and_hazards.md` R161):
two stripped frames joined always verify; with `DELIM = 0x00`, so does a frame with its delimiters on. -/
def Obligations.JoinedFramesVerify : Prop :=
  (∀ (c : ReservedBytes) (p1 p2 : List Byte) (cap : Nat), p1.length + p2.length + 2 ≤ cap →
    decodeFrame c (stripDelimiters (wire c p1) ++ stripDelimiters (wire c p2)) cap =
      .ok (p1 ++ [crcCalc p1] ++ p2)) ∧
  ∀ (c : ReservedBytes) (p : List Byte) (cap : Nat), c.delim = 0x00 → p.length + 3 ≤ cap →
    decodeFrame c (wire c p) cap = .ok ([0x00] ++ p ++ [crcCalc p])

/-- A capacity of the stripped frame's length always suffices the decoder (the spec's own inference
`70_reset_and_hazards.md` R160). -/
def Obligations.DecodeCapacitySuffices : Prop :=
  ∀ (c : ReservedBytes) (f : List Byte) (cap : Nat), f.length ≤ cap →
    decodeFrame c f cap ≠ .error .capacityExceeded ∧
    ∀ u, scan c f cap = .ok u → u.length ≤ f.length

/-! ### Errors -/

/-- `60_exceptions.md` R134: raising an error sets the unit's state to `ERR` and its code, and changes no
other register and no cell; the codes are those of `10_state.md` R17. -/
def Obligations.RaiseRecordsTheErrorOnly : Prop :=
  ∀ (e : ErrorKind) (u : FrameUnit),
    u.raise e = { u with state := .err, err := e.errorCode } ∧
    (ErrorKind.capacityExceeded.errorCode).code = 1 ∧ (ErrorKind.malformedEscape.errorCode).code = 2 ∧
    (ErrorKind.checksumMismatch.errorCode).code = 3 ∧ ErrorCode.none.code = 0 ∧
    UnitState.idle.code = 0 ∧ UnitState.body.code = 1 ∧ UnitState.done.code = 2 ∧ UnitState.err.code = 3

/-- Which command can put a unit into `ERR`, with which code and when (`60_exceptions.md` R130 to R133). For
`CAPACITY_EXCEEDED`: `ENC.START` only with capacity 0; `ENC.PUT` and `ENC.END` only when the bytes they write
do not fit, under the invariant on `enc_len` that `EveryStepKeepsSound` keeps; `DEC.PUT` only when a byte is
to be written and the buffer is full. -/
def Obligations.OnlyTheseCommandsRaise : Prop :=
  ∀ (i : Instr) (s t : State), exec i s = .next t →
    (s.enc.state ≠ .err → t.enc.state = .err → t.enc.err = .capacityExceeded ∧
      (i = .encStart 0 ∨
        (∃ b, i = .encPut b ∧ s.enc.state = .body ∧ (s.enc.len.toNat ≤ s.enc.cap.toNat →
          s.enc.cap.toNat < s.enc.len.toNat + (escape s.cfg.bytes b).length)) ∨
        (i = .encEnd ∧ s.enc.state = .body ∧ (s.enc.len.toNat ≤ s.enc.cap.toNat → s.enc.cap.toNat <
          s.enc.len.toNat + (escape s.cfg.bytes s.enc.crc ++ [s.cfg.bytes.delim]).length)))) ∧
    (s.dec.state ≠ .err → t.dec.state = .err →
      s.dec.state = .body ∧ (
      (t.dec.err = .capacityExceeded ∧ ∃ b, i = .decPut b ∧ s.dec.len = s.dec.cap ∧
        (s.decEsc = false → b ≠ s.cfg.bytes.esc) ∧
        (s.decEsc = true → b = s.cfg.bytes.escDelim ∨ b = s.cfg.bytes.escEsc)) ∨
      (t.dec.err = .malformedEscape ∧ ((∃ b, i = .decPut b ∧ s.decEsc = true ∧
        b ≠ s.cfg.bytes.escDelim ∧ b ≠ s.cfg.bytes.escEsc) ∨ (i = .decEnd ∧ (s.decEsc = true ∨ s.dec.len = 0)))) ∨
      (t.dec.err = .checksumMismatch ∧ i = .decEnd ∧ s.decEsc = false ∧ s.dec.len ≠ 0 ∧ s.dec.crc ≠ 0x00)))

/-- Errors do not nest (the spec's own inference `60_exceptions.md` R140, with R135 and R139): in `ERR` no
command sequence without the unit's `START` changes the unit in any way, and `ENC.START 0` ends in `ERR`
again. -/
def Obligations.ErrorsLastUntilStart : Prop :=
  (∀ (cs : List Instr) (s t : State), s.enc.state = .err → (∀ i ∈ cs, startsEnc i = false) →
    execAll cs s = .next t → t.enc = s.enc) ∧
  (∀ (cs : List Instr) (s t : State), s.dec.state = .err → (∀ i ∈ cs, startsDec i = false) →
    execAll cs s = .next t → t.dec = s.dec ∧ t.decEsc = s.decEsc) ∧
  ∀ s : State, s.enc.state = .err →
    ∃ t, exec (.encStart 0) s = .next t ∧ t.enc.state = .err ∧ t.enc.err = .capacityExceeded

/-- The results of a pseudo-instruction do not depend on the state before it (the spec's own inference
`43_frame_macros.md` R121): from two states with the same configuration it ends with the same checksum, and
with the same unit state, error code and, in `DONE`, length and result cells. -/
def Obligations.PseudoResultsForgetThePast : Prop :=
  ∀ (p : Pseudo) (s s' t : State), s.cfg = s'.cfg → execPseudo p s = .next t →
    ∃ t', execPseudo p s' = .next t' ∧
      match p with
      | .crcCalc _ => t'.crc = t.crc
      | .crcVerify _ => t'.crc = t.crc
      | .encodeFrame _ _ => t'.enc.state = t.enc.state ∧ t'.enc.err = t.enc.err ∧
          (t.enc.state = .done → t'.enc.len = t.enc.len ∧
            hostReadRange t' .out t.enc.len.toNat = hostReadRange t .out t.enc.len.toNat)
      | .decodeFrame _ _ => t'.dec.state = t.dec.state ∧ t'.dec.err = t.dec.err ∧
          (t.dec.state = .done → t'.dec.len = t.dec.len ∧
            hostReadRange t' .msg t.dec.len.toNat = hostReadRange t .msg t.dec.len.toNat)

/-! ### Outputs -/

/-- The outputs (`10_state.md` R20, R22): the CRC and its zero test, the state and error registers, and in
`DONE` the length registers. -/
def Obligations.OutputsShowTheRegisters : Prop :=
  ∀ s : State,
    (observe s).crcVal = s.crc ∧ ((observe s).crcZero = true ↔ s.crc = 0x00) ∧
    (observe s).encState = s.enc.state.code ∧ (observe s).encErr = s.enc.err.code ∧
    (observe s).decState = s.dec.state.code ∧ (observe s).decErr = s.dec.err.code ∧
    (s.enc.state = .done → (observe s).encLen = s.enc.len) ∧ (s.dec.state = .done → (observe s).decLen = s.dec.len)

/-- What the host cannot see (`10_state.md` R23, `20_memory.md` R33): two states that agree on the outputs'
registers, on the length registers outside `BODY` and `ERR`, and on the cells below the length of a unit in
`DONE`, show the same outputs and the same cells, whatever the hidden registers and all other cells hold.
The draw counter they share is the model's own (log 9). That a length register is compared and shown in
`IDLE` is the model's choice (log 20): U3 would let that output be any value. -/
def Obligations.HiddenStateIsHidden : Prop :=
  ∀ s s' : State, s.cfg = s'.cfg → s.draws = s'.draws → s.crc = s'.crc →
    (∀ sp, (s.frameUnit sp).state = (s'.frameUnit sp).state ∧ (s.frameUnit sp).err = (s'.frameUnit sp).err ∧
      ((s.frameUnit sp).state = .done ∨ (s.frameUnit sp).state = .idle →
        (s.frameUnit sp).len = (s'.frameUnit sp).len) ∧
      ((s.frameUnit sp).state = .done → ∀ i, i < (s.frameUnit sp).len.toNat →
        Memory.read (s.frameUnit sp).buf i = Memory.read (s'.frameUnit sp).buf i)) →
    observe s = observe s' ∧ ∀ (sp : Space) (i : Cap), hostRead s sp i = hostRead s' sp i

/-- A host read faults exactly at an index the platform has no cell for (`20_memory.md` R30; log 12), and
below the length of a unit in `DONE` it gives the stored byte (R33). -/
def Obligations.HostReadsExistingCells : Prop :=
  ∀ (s : State) (sp : Space) (i : Cap),
    ((∃ b, hostRead s sp i = .ok b) ↔ i.toNat < s.cfg.size sp) ∧
    (s.cfg.size sp ≤ i.toNat → hostRead s sp i = .error (.noSuchCell sp i.toNat)) ∧
    (∀ b, i.toNat < s.cfg.size sp → (s.frameUnit sp).state = .done → i.toNat < (s.frameUnit sp).len.toNat →
      Memory.read (s.frameUnit sp).buf i.toNat = some b → hostRead s sp i = .ok b)
end

