-- ==== Sys2Proof/Laws/Decode.lean ====
section
/-! SUPPORT. The small lemmas of the decoder and the encoder: the fields of an encoded word, and what the
row selection can answer. -/

namespace Sys2Proof

open Sys2Proof.Machine

/-- `unit` and `fn` of a row select that row. -/
theorem Op.ofFields_code (op : Op) :
    Op.ofFields (op.code.extractLsb' 4 4) (op.code.extractLsb' 0 4) = .ok op := by cases op <;> rfl

/-- A selected row has `unit` and `fn` as its `op` byte. -/
theorem Op.code_of_ofFields {unit fn : BitVec 4} {op : Op} (h : Op.ofFields unit fn = .ok op) :
    unit ++ fn = op.code := by
  revert h
  revert unit fn
  cases op <;> decide

/-- The `match` word of a row is its `op` byte above sixteen zero bits. -/
theorem Op.matchWord_eq (op : Op) : op.matchWord = op.code ++ (0 : BitVec 16) := by cases op <;> rfl

/-- The bits of an encoded word: the operand bits below, the `op` byte above. -/
theorem encode_getLsbD (i : Instr) (k : Nat) :
    (encode i).getLsbD k = if k < 16 then i.arg.getLsbD k else i.op.code.getLsbD (k - 16) := by
  rw [encode, Op.matchWord_eq]
  have h1 := BitVec.getLsbD_append (x := i.op.code) (y := (0 : BitVec 16)) (i := k)
  have h2 := BitVec.getLsbD_setWidth 24 i.arg k
  rw [BitVec.getLsbD_or, h2]
  refine (congrArg (· || _) h1).trans ?_
  by_cases h : k < 16
  · simp [h, show k < 24 by omega]
  · simp [h, BitVec.getLsbD_of_ge i.arg k (by omega)]

/-- A word is determined by its `op` byte, which `unit` and `fn` make up, and its operand bits. -/
theorem word_getLsbD (cw : CommandWord) (k : Nat) (hk : k < 24) :
    cw.getLsbD k = if k < 16 then (argField cw).getLsbD k else (unitField cw ++ fnField cw).getLsbD (k - 16) := by
  simp only [unitField, fnField, argField, BitVec.getLsbD_append, BitVec.getLsbD_extractLsb']
  by_cases h : k < 16
  · simp [h]
  · by_cases h2 : k - 16 < 4
    · simp [h, h2, show 16 + (k - 16) = k by omega]
    · simp [h, h2, show 20 + (k - 16 - 4) = k by omega, show k - 16 - 4 < 4 by omega]

@[simp] theorem argField_encode (i : Instr) : argField (encode i) = i.arg := by
  ext k hk
  rw [argField, BitVec.getElem_extractLsb', encode_getLsbD, if_pos (by omega), Nat.zero_add,
    BitVec.getLsbD_eq_getElem hk]

theorem unitField_encode (i : Instr) : unitField (encode i) = i.op.code.extractLsb' 4 4 := by
  ext k hk
  rw [unitField, BitVec.getElem_extractLsb', encode_getLsbD, if_neg (by omega), BitVec.getElem_extractLsb',
    show 20 + k - 16 = 4 + k by omega]

theorem fnField_encode (i : Instr) : fnField (encode i) = i.op.code.extractLsb' 0 4 := by
  ext k hk
  rw [fnField, BitVec.getElem_extractLsb', encode_getLsbD, if_neg (by omega), BitVec.getElem_extractLsb',
    show 16 + k - 16 = 0 + k by omega]

end Sys2Proof
end

