-- ==== Sys2Proof/Laws/State.lean ====
section
/-! SUPPORT. One lemma per field per update of State and of a frame unit, true by unfolding, so that no later
proof unfolds a record update. -/

namespace Sys2Proof.Machine

@[simp] theorem State.setCrc_cfg (v : Byte) (s : State) : (s.setCrc v).cfg = s.cfg := rfl
@[simp] theorem State.setCrc_crc (v : Byte) (s : State) : (s.setCrc v).crc = v := rfl
@[simp] theorem State.setCrc_enc (v : Byte) (s : State) : (s.setCrc v).enc = s.enc := rfl
@[simp] theorem State.setCrc_dec (v : Byte) (s : State) : (s.setCrc v).dec = s.dec := rfl
@[simp] theorem State.setCrc_decEsc (v : Byte) (s : State) : (s.setCrc v).decEsc = s.decEsc := rfl
@[simp] theorem State.setCrc_port (v : Byte) (s : State) : (s.setCrc v).port = s.port := rfl
@[simp] theorem State.setCrc_draws (v : Byte) (s : State) : (s.setCrc v).draws = s.draws := rfl

@[simp] theorem State.setEnc_cfg (u : FrameUnit) (s : State) : (s.setEnc u).cfg = s.cfg := rfl
@[simp] theorem State.setEnc_crc (u : FrameUnit) (s : State) : (s.setEnc u).crc = s.crc := rfl
@[simp] theorem State.setEnc_enc (u : FrameUnit) (s : State) : (s.setEnc u).enc = u := rfl
@[simp] theorem State.setEnc_dec (u : FrameUnit) (s : State) : (s.setEnc u).dec = s.dec := rfl
@[simp] theorem State.setEnc_decEsc (u : FrameUnit) (s : State) : (s.setEnc u).decEsc = s.decEsc := rfl
@[simp] theorem State.setEnc_port (u : FrameUnit) (s : State) : (s.setEnc u).port = s.port := rfl
@[simp] theorem State.setEnc_draws (u : FrameUnit) (s : State) : (s.setEnc u).draws = s.draws := rfl

@[simp] theorem State.setDec_cfg (u : FrameUnit) (s : State) : (s.setDec u).cfg = s.cfg := rfl
@[simp] theorem State.setDec_crc (u : FrameUnit) (s : State) : (s.setDec u).crc = s.crc := rfl
@[simp] theorem State.setDec_enc (u : FrameUnit) (s : State) : (s.setDec u).enc = s.enc := rfl
@[simp] theorem State.setDec_dec (u : FrameUnit) (s : State) : (s.setDec u).dec = u := rfl
@[simp] theorem State.setDec_decEsc (u : FrameUnit) (s : State) : (s.setDec u).decEsc = s.decEsc := rfl
@[simp] theorem State.setDec_port (u : FrameUnit) (s : State) : (s.setDec u).port = s.port := rfl
@[simp] theorem State.setDec_draws (u : FrameUnit) (s : State) : (s.setDec u).draws = s.draws := rfl

@[simp] theorem State.setDecEsc_cfg (v : Bool) (s : State) : (s.setDecEsc v).cfg = s.cfg := rfl
@[simp] theorem State.setDecEsc_crc (v : Bool) (s : State) : (s.setDecEsc v).crc = s.crc := rfl
@[simp] theorem State.setDecEsc_enc (v : Bool) (s : State) : (s.setDecEsc v).enc = s.enc := rfl
@[simp] theorem State.setDecEsc_dec (v : Bool) (s : State) : (s.setDecEsc v).dec = s.dec := rfl
@[simp] theorem State.setDecEsc_decEsc (v : Bool) (s : State) : (s.setDecEsc v).decEsc = v := rfl
@[simp] theorem State.setDecEsc_port (v : Bool) (s : State) : (s.setDecEsc v).port = s.port := rfl
@[simp] theorem State.setDecEsc_draws (v : Bool) (s : State) : (s.setDecEsc v).draws = s.draws := rfl

@[simp] theorem State.takeInput_cfg (r : List HostInput) (s : State) : (s.takeInput r).cfg = s.cfg := rfl
@[simp] theorem State.takeInput_crc (r : List HostInput) (s : State) : (s.takeInput r).crc = s.crc := rfl
@[simp] theorem State.takeInput_enc (r : List HostInput) (s : State) : (s.takeInput r).enc = s.enc := rfl
@[simp] theorem State.takeInput_dec (r : List HostInput) (s : State) : (s.takeInput r).dec = s.dec := rfl
@[simp] theorem State.takeInput_decEsc (r : List HostInput) (s : State) : (s.takeInput r).decEsc = s.decEsc := rfl
@[simp] theorem State.takeInput_port (r : List HostInput) (s : State) : (s.takeInput r).port = r := rfl
@[simp] theorem State.takeInput_draws (r : List HostInput) (s : State) : (s.takeInput r).draws = s.draws + 1 := rfl

@[simp] theorem State.externalReset_cfg (s : State) : (s.externalReset).cfg = s.cfg := rfl
@[simp] theorem State.externalReset_crc (s : State) : (s.externalReset).crc = 0x00 := rfl
@[simp] theorem State.externalReset_enc (s : State) : (s.externalReset).enc = s.enc.resetRegisters := rfl
@[simp] theorem State.externalReset_dec (s : State) : (s.externalReset).dec = s.dec.resetRegisters := rfl
@[simp] theorem State.externalReset_decEsc (s : State) : (s.externalReset).decEsc = false := rfl
@[simp] theorem State.externalReset_port (s : State) : (s.externalReset).port = s.port := rfl
@[simp] theorem State.externalReset_draws (s : State) : (s.externalReset).draws = s.draws := rfl

@[simp] theorem FrameUnit.raise_state (e : ErrorKind) (u : FrameUnit) : (u.raise e).state = .err := rfl
@[simp] theorem FrameUnit.raise_err (e : ErrorKind) (u : FrameUnit) : (u.raise e).err = e.errorCode := rfl
@[simp] theorem FrameUnit.raise_cap (e : ErrorKind) (u : FrameUnit) : (u.raise e).cap = u.cap := rfl
@[simp] theorem FrameUnit.raise_len (e : ErrorKind) (u : FrameUnit) : (u.raise e).len = u.len := rfl
@[simp] theorem FrameUnit.raise_crc (e : ErrorKind) (u : FrameUnit) : (u.raise e).crc = u.crc := rfl
@[simp] theorem FrameUnit.raise_buf (e : ErrorKind) (u : FrameUnit) : (u.raise e).buf = u.buf := rfl

@[simp] theorem FrameUnit.begin_state (c : Cap) (u : FrameUnit) : (u.begin c).state = .body := rfl
@[simp] theorem FrameUnit.begin_err (c : Cap) (u : FrameUnit) : (u.begin c).err = .none := rfl
@[simp] theorem FrameUnit.begin_cap (c : Cap) (u : FrameUnit) : (u.begin c).cap = c := rfl
@[simp] theorem FrameUnit.begin_len (c : Cap) (u : FrameUnit) : (u.begin c).len = 0 := rfl
@[simp] theorem FrameUnit.begin_crc (c : Cap) (u : FrameUnit) : (u.begin c).crc = 0x00 := rfl
@[simp] theorem FrameUnit.begin_buf (c : Cap) (u : FrameUnit) : (u.begin c).buf = u.buf := rfl

@[simp] theorem FrameUnit.store_state (v : Byte) (u : FrameUnit) : (u.store v).state = u.state := rfl
@[simp] theorem FrameUnit.store_err (v : Byte) (u : FrameUnit) : (u.store v).err = u.err := rfl
@[simp] theorem FrameUnit.store_cap (v : Byte) (u : FrameUnit) : (u.store v).cap = u.cap := rfl
@[simp] theorem FrameUnit.store_len (v : Byte) (u : FrameUnit) : (u.store v).len = u.len + 1 := rfl
@[simp] theorem FrameUnit.store_crc (v : Byte) (u : FrameUnit) : (u.store v).crc = u.crc := rfl
@[simp] theorem FrameUnit.store_buf (v : Byte) (u : FrameUnit) : (u.store v).buf = Memory.write u.buf u.len.toNat v := rfl

@[simp] theorem FrameUnit.accumulate_state (v : Byte) (u : FrameUnit) : (u.accumulate v).state = u.state := rfl
@[simp] theorem FrameUnit.accumulate_err (v : Byte) (u : FrameUnit) : (u.accumulate v).err = u.err := rfl
@[simp] theorem FrameUnit.accumulate_cap (v : Byte) (u : FrameUnit) : (u.accumulate v).cap = u.cap := rfl
@[simp] theorem FrameUnit.accumulate_len (v : Byte) (u : FrameUnit) : (u.accumulate v).len = u.len := rfl
@[simp] theorem FrameUnit.accumulate_crc (v : Byte) (u : FrameUnit) : (u.accumulate v).crc = crcByte u.crc v := rfl
@[simp] theorem FrameUnit.accumulate_buf (v : Byte) (u : FrameUnit) : (u.accumulate v).buf = u.buf := rfl

@[simp] theorem FrameUnit.finish_state (u : FrameUnit) : (u.finish).state = .done := rfl
@[simp] theorem FrameUnit.finish_err (u : FrameUnit) : (u.finish).err = u.err := rfl
@[simp] theorem FrameUnit.finish_cap (u : FrameUnit) : (u.finish).cap = u.cap := rfl
@[simp] theorem FrameUnit.finish_len (u : FrameUnit) : (u.finish).len = u.len := rfl
@[simp] theorem FrameUnit.finish_crc (u : FrameUnit) : (u.finish).crc = u.crc := rfl
@[simp] theorem FrameUnit.finish_buf (u : FrameUnit) : (u.finish).buf = u.buf := rfl

@[simp] theorem FrameUnit.dropTrailer_state (u : FrameUnit) : (u.dropTrailer).state = u.state := rfl
@[simp] theorem FrameUnit.dropTrailer_err (u : FrameUnit) : (u.dropTrailer).err = u.err := rfl
@[simp] theorem FrameUnit.dropTrailer_cap (u : FrameUnit) : (u.dropTrailer).cap = u.cap := rfl
@[simp] theorem FrameUnit.dropTrailer_len (u : FrameUnit) : (u.dropTrailer).len = u.len - 1 := rfl
@[simp] theorem FrameUnit.dropTrailer_crc (u : FrameUnit) : (u.dropTrailer).crc = u.crc := rfl
@[simp] theorem FrameUnit.dropTrailer_buf (u : FrameUnit) : (u.dropTrailer).buf = u.buf := rfl

@[simp] theorem FrameUnit.resetRegisters_state (u : FrameUnit) : (u.resetRegisters).state = .idle := rfl
@[simp] theorem FrameUnit.resetRegisters_err (u : FrameUnit) : (u.resetRegisters).err = .none := rfl
@[simp] theorem FrameUnit.resetRegisters_cap (u : FrameUnit) : (u.resetRegisters).cap = 0 := rfl
@[simp] theorem FrameUnit.resetRegisters_len (u : FrameUnit) : (u.resetRegisters).len = 0 := rfl
@[simp] theorem FrameUnit.resetRegisters_crc (u : FrameUnit) : (u.resetRegisters).crc = 0x00 := rfl
@[simp] theorem FrameUnit.resetRegisters_buf (u : FrameUnit) : (u.resetRegisters).buf = u.buf := rfl

end Sys2Proof.Machine
end

