-- ==== Sys2Proof/Laws/Ops.lean ====
section
/-! SUPPORT. One lemma per shared operation that says everything it can do: the capacity-checked writes of
ENC and DEC, single and in a row, and what every command leaves alone. -/

namespace Sys2Proof.Machine

theorem FrameUnit.inBody_body {f : FrameUnit → FrameUnit} {u : FrameUnit} (h : u.state = .body) :
    u.inBody f = f u := by simp [FrameUnit.inBody, h]

theorem FrameUnit.inBody_not_body {f : FrameUnit → FrameUnit} {u : FrameUnit} (h : u.state ≠ .body) :
    u.inBody f = u := by simp [FrameUnit.inBody, h]

/-- `enc_emit` outside `BODY` does nothing. -/
theorem FrameUnit.encEmit_not_body {u : FrameUnit} (v : Byte) (h : u.state ≠ .body) : u.encEmit v = u :=
  FrameUnit.inBody_not_body h

/-- `enc_emit` with the buffer full raises. -/
theorem FrameUnit.encEmit_full {u : FrameUnit} (v : Byte) (h : u.state = .body) (hf : u.len = u.cap) :
    u.encEmit v = u.raise .capacityExceeded := by simp [FrameUnit.encEmit, FrameUnit.inBody, FrameUnit.ifRoom, h, hf]

/-- `enc_emit` with room stores. -/
theorem FrameUnit.encEmit_room {u : FrameUnit} (v : Byte) (h : u.state = .body) (hr : u.len ≠ u.cap) :
    u.encEmit v = u.store v := by simp [FrameUnit.encEmit, FrameUnit.inBody, FrameUnit.ifRoom, h, hr]

theorem FrameUnit.decEmit_not_body {u : FrameUnit} (v : Byte) (h : u.state ≠ .body) : u.decEmit v = u :=
  FrameUnit.inBody_not_body h

/-- `dec_emit` with the buffer full raises. -/
theorem FrameUnit.decEmit_full {u : FrameUnit} (v : Byte) (h : u.state = .body) (hf : u.len = u.cap) :
    u.decEmit v = u.raise .capacityExceeded := by simp [FrameUnit.decEmit, FrameUnit.inBody, FrameUnit.ifRoom, h, hf]

/-- `dec_emit` with room stores and updates the running CRC. -/
theorem FrameUnit.decEmit_room {u : FrameUnit} (v : Byte) (h : u.state = .body) (hr : u.len ≠ u.cap) :
    u.decEmit v = (u.store v).accumulate v := by
  simp [FrameUnit.decEmit, FrameUnit.inBody, FrameUnit.ifRoom, h, hr]

@[simp] theorem FrameUnit.encEmitAll_nil (u : FrameUnit) : u.encEmitAll [] = u := rfl

@[simp] theorem FrameUnit.encEmitAll_cons (v : Byte) (vs : List Byte) (u : FrameUnit) :
    u.encEmitAll (v :: vs) = (u.encEmit v).encEmitAll vs := rfl

theorem FrameUnit.encEmitAll_append (vs ws : List Byte) (u : FrameUnit) :
    u.encEmitAll (vs ++ ws) = (u.encEmitAll vs).encEmitAll ws := by
  simp [FrameUnit.encEmitAll, List.foldl_append]

theorem FrameUnit.encEmitAll_not_body {u : FrameUnit} (vs : List Byte) (h : u.state ≠ .body) :
    u.encEmitAll vs = u := by
  induction vs with
  | nil => rfl
  | cons v vs ih => rw [FrameUnit.encEmitAll_cons, FrameUnit.encEmit_not_body v h, ih]

/-- A unit after a run of stores: the cells from the write index on, and the index past them. -/
def FrameUnit.storeAll (vs : List Byte) (u : FrameUnit) : FrameUnit :=
  { u with buf := Memory.writeAll u.buf u.len.toNat vs, len := u.len + BitVec.ofNat 16 vs.length }

@[simp] theorem FrameUnit.storeAll_nil (u : FrameUnit) : u.storeAll [] = u := by
  simp [FrameUnit.storeAll, Memory.writeAll]

theorem FrameUnit.store_len_toNat {u : FrameUnit} (v : Byte) (h : u.len.toNat < u.cap.toNat) :
    (u.store v).len.toNat = u.len.toNat + 1 := by
  have := u.cap.isLt
  simp only [FrameUnit.store_len, BitVec.toNat_add]
  rw [show BitVec.toNat (1 : BitVec 16) = 1 from rfl, Nat.mod_eq_of_lt (by omega)]

theorem FrameUnit.storeAll_len_toNat {u : FrameUnit} (vs : List Byte)
    (h : u.len.toNat + vs.length ≤ u.cap.toNat) : (u.storeAll vs).len.toNat = u.len.toNat + vs.length := by
  have := u.cap.isLt
  simp only [FrameUnit.storeAll, BitVec.toNat_add, BitVec.toNat_ofNat] at *
  rw [Nat.mod_eq_of_lt (by omega : vs.length < 2 ^ 16), Nat.mod_eq_of_lt (by omega)]

theorem FrameUnit.len_ne_cap {u : FrameUnit} (h : u.len.toNat < u.cap.toNat) : u.len ≠ u.cap := by
  intro e; rw [e] at h; exact lt_irrefl _ h

theorem FrameUnit.len_eq_cap {u : FrameUnit} (h : u.len.toNat = u.cap.toNat) : u.len = u.cap := BitVec.eq_of_toNat_eq h

theorem FrameUnit.store_storeAll {u : FrameUnit} (v : Byte) (vs : List Byte) (h : u.len.toNat < u.cap.toNat) :
    (u.store v).storeAll vs = u.storeAll (v :: vs) := by
  have hl := FrameUnit.store_len_toNat v h
  simp only [FrameUnit.storeAll, hl, FrameUnit.store_buf, Memory.writeAll, List.length_cons]
  simp only [FrameUnit.store, FrameUnit.mk.injEq, true_and, and_true]
  rw [BitVec.ofNat_add, BitVec.add_assoc, BitVec.add_comm 1 _]
  rfl

/-- Writes that all fit: every byte is stored. -/
theorem FrameUnit.encEmitAll_fits {u : FrameUnit} (vs : List Byte) (hb : u.state = .body)
    (h : u.len.toNat + vs.length ≤ u.cap.toNat) : u.encEmitAll vs = u.storeAll vs := by
  induction vs generalizing u with
  | nil => simp
  | cons v vs ih =>
    rw [List.length_cons] at h
    have hlt : u.len.toNat < u.cap.toNat := by omega
    rw [FrameUnit.encEmitAll_cons, FrameUnit.encEmit_room v hb (FrameUnit.len_ne_cap hlt),
      ih (by simpa using hb) (by rw [FrameUnit.store_len_toNat v hlt]; simp; omega),
      FrameUnit.store_storeAll v vs hlt]

/-- Writes that do not all fit: what fits is stored and the next one raises. -/
theorem FrameUnit.encEmitAll_overflow {u : FrameUnit} (vs : List Byte) (hb : u.state = .body)
    (hl : u.len.toNat ≤ u.cap.toNat) (h : u.cap.toNat < u.len.toNat + vs.length) :
    u.encEmitAll vs = (u.storeAll (vs.take (u.cap.toNat - u.len.toNat))).raise .capacityExceeded := by
  induction vs generalizing u with
  | nil => simp at h; omega
  | cons v vs ih =>
    rw [List.length_cons] at h
    rw [FrameUnit.encEmitAll_cons]
    by_cases he : u.len.toNat = u.cap.toNat
    · rw [FrameUnit.encEmit_full v hb (FrameUnit.len_eq_cap he), FrameUnit.encEmitAll_not_body vs (by simp), he]
      simp
    · have hlt : u.len.toNat < u.cap.toNat := by omega
      have hs := FrameUnit.store_len_toNat v hlt
      rw [FrameUnit.encEmit_room v hb (FrameUnit.len_ne_cap hlt), ih (by simpa using hb) (by rw [hs]; simp; omega)
        (by rw [hs]; simp; omega), hs, FrameUnit.store_cap, FrameUnit.store_storeAll v _ hlt,
        show u.cap.toNat - u.len.toNat = (u.cap.toNat - (u.len.toNat + 1)) + 1 by omega, List.take_succ_cons]

/-- What a run of capacity-checked writes leaves alone, wherever it stops: the capacity, the CRC, the
cells before the write index and the cells at or beyond the capacity. -/
theorem FrameUnit.encEmitAll_frame {u : FrameUnit} (vs : List Byte) (hl : u.len.toNat ≤ u.cap.toNat) :
    (u.encEmitAll vs).cap = u.cap ∧ (u.encEmitAll vs).crc = u.crc ∧
      (u.encEmitAll vs).len.toNat ≤ u.cap.toNat ∧
      ∀ a, a < u.len.toNat ∨ u.cap.toNat ≤ a ∨ u.len.toNat + vs.length ≤ a →
        Memory.read (u.encEmitAll vs).buf a = Memory.read u.buf a := by
  by_cases hb : u.state = .body
  · by_cases hf : u.len.toNat + vs.length ≤ u.cap.toNat
    · rw [FrameUnit.encEmitAll_fits vs hb hf]
      refine ⟨rfl, rfl, by rw [FrameUnit.storeAll_len_toNat vs hf]; exact hf, fun a ha => ?_⟩
      simp only [FrameUnit.storeAll, Memory.read_writeAll]
      rw [if_neg (by omega)]
    · have ht : (vs.take (u.cap.toNat - u.len.toNat)).length = u.cap.toNat - u.len.toNat := by
        rw [List.length_take]; omega
      rw [FrameUnit.encEmitAll_overflow vs hb hl (by omega)]
      refine ⟨rfl, rfl, ?_, fun a ha => ?_⟩
      · rw [FrameUnit.raise_len, FrameUnit.storeAll_len_toNat _ (by omega)]; omega
      · simp only [FrameUnit.raise_buf, FrameUnit.storeAll, Memory.read_writeAll]
        rw [if_neg (by omega)]
  · rw [FrameUnit.encEmitAll_not_body vs hb]
    exact ⟨rfl, rfl, hl, fun _ _ => rfl⟩

/-- `DEC.PUT` outside the pending escape and the capacity check: what `decTake` can do in `BODY`. -/
theorem FrameUnit.decTake_cases (c : ReservedBytes) (pending : Bool) (b : Byte) (u : FrameUnit) :
    u.decTake c pending b = u ∨ u.decTake c pending b = u.raise .malformedEscape ∨
      ∃ v, u.decTake c pending b = u.decEmit v := by
  unfold FrameUnit.decTake
  split
  · split
    · exact .inr (.inr ⟨_, rfl⟩)
    · exact .inr (.inl rfl)
  · split
    · exact .inl rfl
    · exact .inr (.inr ⟨_, rfl⟩)

/-- What `dec_emit` can do. -/
theorem FrameUnit.decEmit_cases (v : Byte) (u : FrameUnit) :
    u.decEmit v = u ∨ (u.state = .body ∧ u.len = u.cap ∧ u.decEmit v = u.raise .capacityExceeded) ∨
      (u.state = .body ∧ u.len ≠ u.cap ∧ u.decEmit v = (u.store v).accumulate v) := by
  by_cases hb : u.state = .body
  · by_cases hf : u.len = u.cap
    · exact .inr (.inl ⟨hb, hf, FrameUnit.decEmit_full v hb hf⟩)
    · exact .inr (.inr ⟨hb, hf, FrameUnit.decEmit_room v hb hf⟩)
  · exact .inl (FrameUnit.decEmit_not_body v hb)

/-- What `enc_emit` can do. -/
theorem FrameUnit.encEmit_cases (v : Byte) (u : FrameUnit) :
    u.encEmit v = u ∨ (u.state = .body ∧ u.len = u.cap ∧ u.encEmit v = u.raise .capacityExceeded) ∨
      (u.state = .body ∧ u.len ≠ u.cap ∧ u.encEmit v = u.store v) := by
  by_cases hb : u.state = .body
  · by_cases hf : u.len = u.cap
    · exact .inr (.inl ⟨hb, hf, FrameUnit.encEmit_full v hb hf⟩)
    · exact .inr (.inr ⟨hb, hf, FrameUnit.encEmit_room v hb hf⟩)
  · exact .inl (FrameUnit.encEmit_not_body v hb)

/-- What `DEC.END` can do in `BODY`. -/
theorem FrameUnit.decFinish_cases (pending : Bool) (u : FrameUnit) :
    u.decFinish pending = u.raise .malformedEscape ∨
      (pending = false ∧ u.len ≠ 0 ∧ u.crc ≠ 0x00 ∧ u.decFinish pending = u.raise .checksumMismatch) ∨
      (pending = false ∧ u.len ≠ 0 ∧ u.crc = 0x00 ∧ u.decFinish pending = u.dropTrailer.finish) := by
  unfold FrameUnit.decFinish
  cases pending with
  | true => exact .inl rfl
  | false =>
    by_cases hl : u.len = 0
    · simp [hl]
    · by_cases hc : u.crc = 0x00 <;> simp_all

/-- A `START` answers a next state exactly when its capacity fits the real buffer. -/
theorem State.ifFits_next {s t r : State} {sp : Space} {cap : Cap} :
    s.ifFits sp cap t = .next r ↔ cap.toNat ≤ s.cfg.size sp ∧ r = t := by
  unfold State.ifFits
  split <;> simp_all [eq_comm]

/-- What an ENC or CRC or DEC command can answer: a next state in which only its own unit may differ. -/
theorem exec_frame {i : Instr} {s t : State} (h : exec i s = .next t) :
    t.cfg = s.cfg ∧ t.port = s.port ∧ t.draws = s.draws ∧ (i.component ≠ .crc → t.crc = s.crc) ∧
      (i.component ≠ .enc → t.enc = s.enc) ∧ (i.component ≠ .dec → t.dec = s.dec ∧ t.decEsc = s.decEsc) := by
  cases i <;> simp only [exec, execCrcClr, execCrcUpd, execEncStart, execEncPut, execEncEnd, execDecStart,
    execDecPut, execDecEnd, State.ifFits_next, Host.Outcome.next.injEq] at h
  case encStart => obtain ⟨-, rfl⟩ := h; simp [Instr.component]
  case decStart => obtain ⟨-, rfl⟩ := h; simp [Instr.component]
  case decPut =>
    split at h <;> (simp only [Host.Outcome.next.injEq] at h; subst h; simp [Instr.component])
  all_goals (subst h; simp [Instr.component])

end Sys2Proof.Machine
end

