-- ==== Sys2Proof/Laws/PerInstr.lean ====
section
/-! SUPPORT. Statements made per command, about its syntax only. Family `TableRow`: the operand bits of a
command meet the constraint of its row (`30_encoding.md` R55) and give the command back, and its word
meets the row's match and mask (R56). -/

namespace Sys2Proof.Laws.TableRow

open Sys2Proof.Machine

/-- The operand bits fit the row's form and rebuild the command; the word meets the row's mask. -/
def Statement (i : Instr) : Prop :=
  i.op.form.admits i.arg = true ∧ i.op.instr i.arg = i ∧ encode i &&& i.op.maskWord = i.op.matchWord

/-- A byte operand in `arg`. -/
theorem byte_fits (b : Byte) : OperandForm.byte.admits (b.setWidth 16) = true ∧ imm8Operand (b.setWidth 16) = b := by
  constructor
  · simp only [OperandForm.admits, beq_iff_eq]
    ext k hk
    simp
  · ext k hk
    simp [imm8Operand, BitVec.getLsbD_eq_getElem hk]
    omega

/-- A byte operand lies outside the mask of a byte row. -/
theorem byte_mask (m : CommandWord) (b : Byte) (h : m &&& 0xFFFF00 = m) :
    (m ||| (b.setWidth 16).setWidth 24) &&& 0xFFFF00 = m := by
  have : ((b.setWidth 16).setWidth 24 : CommandWord) &&& 0xFFFF00 = 0 := by revert b; decide
  rw [BitVec.and_comm, BitVec.and_or_distrib_left, BitVec.and_comm, h, BitVec.and_comm, this]
  simp

/-- A capacity operand lies outside the mask of a capacity row. -/
theorem cap_mask (m : CommandWord) (c : Cap) (h : m &&& 0xFF0000 = m) :
    (m ||| (c.setWidth 24)) &&& 0xFF0000 = m := by
  have low : ∀ k : Fin 16, (0xFF0000 : CommandWord).getLsbD k = false := by decide
  have : (c.setWidth 24 : CommandWord) &&& 0xFF0000 = 0 := by
    ext k hk
    rw [BitVec.getElem_and, ← BitVec.getLsbD_eq_getElem hk, ← BitVec.getLsbD_eq_getElem hk, BitVec.getLsbD_setWidth]
    by_cases h : k < 16
    · rw [low ⟨k, h⟩, Bool.and_false]; simp
    · rw [BitVec.getLsbD_of_ge c k (by omega), Bool.and_false, Bool.false_and]; simp
  rw [BitVec.and_comm, BitVec.and_or_distrib_left, BitVec.and_comm, h, BitVec.and_comm, this]
  simp

theorem crcClr : Statement .crcClr := by unfold Statement; decide

theorem crcUpd (imm8 : Byte) : Statement (.crcUpd imm8) :=
  ⟨(byte_fits imm8).1, congrArg Instr.crcUpd (byte_fits imm8).2, byte_mask 0x110000 imm8 (by decide)⟩

theorem encStart (cap : Cap) : Statement (.encStart cap) := ⟨rfl, rfl, cap_mask 0x200000 cap (by decide)⟩

theorem encPut (imm8 : Byte) : Statement (.encPut imm8) :=
  ⟨(byte_fits imm8).1, congrArg Instr.encPut (byte_fits imm8).2, byte_mask 0x210000 imm8 (by decide)⟩

theorem encEnd : Statement .encEnd := by unfold Statement; decide

theorem decStart (cap : Cap) : Statement (.decStart cap) := ⟨rfl, rfl, cap_mask 0x300000 cap (by decide)⟩

theorem decPut (imm8 : Byte) : Statement (.decPut imm8) :=
  ⟨(byte_fits imm8).1, congrArg Instr.decPut (byte_fits imm8).2, byte_mask 0x310000 imm8 (by decide)⟩

theorem decEnd : Statement .decEnd := by unfold Statement; decide

end Sys2Proof.Laws.TableRow
end

