-- ==== Sys2Proof/Laws/Sound.lean ====
section
/-! SUPPORT. Each shared operation keeps the invariant of a unit (`FrameUnit.Sound`); the invariant of a
whole step is left to the provers. -/

namespace Sys2Proof.Machine

theorem FrameUnit.Sound.raise {n : Nat} {u : FrameUnit} (e : ErrorKind) (h : u.Sound n) : (u.raise e).Sound n where
  errIffErr := by cases e <;> simp [ErrorKind.errorCode]
  lenLeCap := h.lenLeCap
  capLeSize := h.capLeSize
  bufWf := h.bufWf
  bufBelow := h.bufBelow
  bufWritten := h.bufWritten
  idleClear := by simp

theorem FrameUnit.Sound.begin {n : Nat} {u : FrameUnit} {c : Cap} (h : u.Sound n) (hc : c.toNat ≤ n) :
    (u.begin c).Sound n where
  errIffErr := by simp
  lenLeCap := by simp
  capLeSize := hc
  bufWf := h.bufWf
  bufBelow := h.bufBelow
  bufWritten := by simp
  idleClear := by simp

theorem FrameUnit.Sound.store {n : Nat} {u : FrameUnit} (v : Byte) (h : u.Sound n) (hb : u.state = .body)
    (hr : u.len ≠ u.cap) : (u.store v).Sound n := by
  have hlt : u.len.toNat < u.cap.toNat :=
    lt_of_le_of_ne h.lenLeCap fun e => hr (FrameUnit.len_eq_cap e)
  have hs := FrameUnit.store_len_toNat v hlt
  exact
    { errIffErr := h.errIffErr
      lenLeCap := by rw [hs]; exact hlt
      capLeSize := h.capLeSize
      bufWf := Memory.write_wf _ _ h.bufWf
      bufBelow := Memory.write_below v h.bufBelow (lt_of_lt_of_le hlt h.capLeSize)
      bufWritten := fun i hi => by
        rw [hs] at hi
        rw [FrameUnit.store_buf, Memory.read_write]
        split
        · rfl
        · exact h.bufWritten i (by omega)
      idleClear := by simp [hb] }

theorem FrameUnit.Sound.accumulate {n : Nat} {u : FrameUnit} (v : Byte) (h : u.Sound n) (hb : u.state = .body) :
    (u.accumulate v).Sound n where
  errIffErr := h.errIffErr
  lenLeCap := h.lenLeCap
  capLeSize := h.capLeSize
  bufWf := h.bufWf
  bufBelow := h.bufBelow
  bufWritten := h.bufWritten
  idleClear := by simp [hb]

theorem FrameUnit.Sound.finish {n : Nat} {u : FrameUnit} (h : u.Sound n) (hb : u.state = .body) :
    u.finish.Sound n where
  errIffErr := by have := h.errIffErr; simp_all
  lenLeCap := h.lenLeCap
  capLeSize := h.capLeSize
  bufWf := h.bufWf
  bufBelow := h.bufBelow
  bufWritten := h.bufWritten
  idleClear := by simp

theorem FrameUnit.Sound.dropTrailer {n : Nat} {u : FrameUnit} (h : u.Sound n) (hb : u.state = .body)
    (hl : u.len ≠ 0) : u.dropTrailer.Sound n := by
  have hp : 0 < u.len.toNat := Nat.pos_of_ne_zero fun e => hl (BitVec.eq_of_toNat_eq e)
  have hs : u.dropTrailer.len.toNat = u.len.toNat - 1 := by
    have h1 := u.len.isLt
    simp only [FrameUnit.dropTrailer_len, BitVec.toNat_sub] at *
    rw [show BitVec.toNat (1 : BitVec 16) = 1 from rfl]
    omega
  exact
    { errIffErr := h.errIffErr
      lenLeCap := by have := h.lenLeCap; rw [hs]; simp; omega
      capLeSize := h.capLeSize
      bufWf := h.bufWf
      bufBelow := h.bufBelow
      bufWritten := fun i hi => h.bufWritten i (by omega)
      idleClear := by simp [hb] }

theorem FrameUnit.Sound.encEmit {n : Nat} {u : FrameUnit} (v : Byte) (h : u.Sound n) : (u.encEmit v).Sound n := by
  rcases FrameUnit.encEmit_cases v u with e | ⟨-, -, e⟩ | ⟨hb, hr, e⟩ <;> rw [e]
  · exact h
  · exact h.raise _
  · exact h.store v hb hr

theorem FrameUnit.Sound.encEmitAll {n : Nat} {u : FrameUnit} (vs : List Byte) (h : u.Sound n) :
    (u.encEmitAll vs).Sound n := by
  induction vs generalizing u with
  | nil => exact h
  | cons v vs ih => exact ih (h.encEmit v)

theorem FrameUnit.Sound.decEmit {n : Nat} {u : FrameUnit} (v : Byte) (h : u.Sound n) : (u.decEmit v).Sound n := by
  rcases FrameUnit.decEmit_cases v u with e | ⟨-, -, e⟩ | ⟨hb, hr, e⟩ <;> rw [e]
  · exact h
  · exact h.raise _
  · exact (h.store v hb hr).accumulate v (by simpa using hb)

theorem FrameUnit.Sound.resetRegisters {n : Nat} {u : FrameUnit} (h : u.Sound n) : u.resetRegisters.Sound n where
  errIffErr := by simp
  lenLeCap := by simp
  capLeSize := by simp
  bufWf := h.bufWf
  bufBelow := h.bufBelow
  bufWritten := by simp
  idleClear := by simp

end Sys2Proof.Machine
end

