-- ==== Sys2Proof/Machine/Assembler.lean ====
section
/-! DEFINITION. The textual syntax of command sequences (`30_encoding.md` R59, R60): one command or
pseudo-instruction a line, `#` comments, the operand a number in the notation of `00_scope.md` section
7.1. A text is a list of characters. What R59 leaves open is log 19. -/

namespace Sys2Proof.Machine

/-- The mnemonic of a row, exactly as in `30_encoding.md` R53. -/
def mnemonic : Op → List Char
  | .crcClr => ['C', 'R', 'C', '.', 'C', 'L', 'R']
  | .crcUpd => ['C', 'R', 'C', '.', 'U', 'P', 'D']
  | .encStart => ['E', 'N', 'C', '.', 'S', 'T', 'A', 'R', 'T']
  | .encPut => ['E', 'N', 'C', '.', 'P', 'U', 'T']
  | .encEnd => ['E', 'N', 'C', '.', 'E', 'N', 'D']
  | .decStart => ['D', 'E', 'C', '.', 'S', 'T', 'A', 'R', 'T']
  | .decPut => ['D', 'E', 'C', '.', 'P', 'U', 'T']
  | .decEnd => ['D', 'E', 'C', '.', 'E', 'N', 'D']

/-- The value of a digit in a base up to 16. -/
def digitValue (base : Nat) (ch : Char) : Option Nat :=
  let v := if '0' ≤ ch ∧ ch ≤ '9' then ch.toNat - '0'.toNat
    else if 'a' ≤ ch ∧ ch ≤ 'f' then ch.toNat - 'a'.toNat + 10
    else if 'A' ≤ ch ∧ ch ≤ 'F' then ch.toNat - 'A'.toNat + 10
    else 16
  if v < base then some v else none

/-- The value of a string of digits after the digits read so far. -/
def digitsFrom (base : Nat) : Nat → List Char → Option Nat
  | acc, [] => some acc
  | acc, ch :: rest =>
    match digitValue base ch with
    | some v => digitsFrom base (acc * base + v) rest
    | none => none

/-- A number: `0x` hexadecimal, `0b` binary, anything else decimal (`00_scope.md` section 7.1). -/
def parseNumber : List Char → Option Nat
  | [] => none
  | '0' :: 'x' :: d :: rest => digitsFrom 16 0 (d :: rest)
  | '0' :: 'b' :: d :: rest => digitsFrom 2 0 (d :: rest)
  | ch :: rest => digitsFrom 10 0 (ch :: rest)

/-- A number that is a byte. -/
def parseByte (t : List Char) : Option Byte :=
  match parseNumber t with
  | some n => if n < 2 ^ 8 then some (BitVec.ofNat 8 n) else none
  | none => none

/-- A number that is a capacity, 0 to CAP_MAX. -/
def parseCap (t : List Char) : Option Cap :=
  match parseNumber t with
  | some n => if n ≤ capMax then some (BitVec.ofNat 16 n) else none
  | none => none

/-- The tokens of a line: comma and brackets stand alone, blanks separate, `#` ends the line (R59). -/
def tokensFrom (cur : List Char) : List Char → List (List Char)
  | [] => if cur.isEmpty then [] else [cur.reverse]
  | ch :: rest =>
    let flushed := if cur.isEmpty then [] else [cur.reverse]
    if ch = '#' then flushed
    else if ch = ' ' ∨ ch = '\t' ∨ ch = '\r' then flushed ++ tokensFrom [] rest
    else if ch = ',' ∨ ch = '[' ∨ ch = ']' then flushed ++ [ch] :: tokensFrom [] rest
    else tokensFrom (ch :: cur) rest

/-- The rest of a byte sequence `b0, ..., bk]` after its opening bracket and first element. -/
def parseBytesTail : List (List Char) → Option (List Byte)
  | [[']']] => some []
  | [','] :: t :: rest =>
    match parseByte t, parseBytesTail rest with
    | some b, some bs => some (b :: bs)
    | _, _ => none
  | _ => none

/-- A byte sequence `[b0, ..., bk]` or `[]` (`00_scope.md` section 7.1). -/
def parseBytes : List (List Char) → Option (List Byte)
  | [['['], [']']] => some []
  | ['['] :: t :: rest =>
    match parseByte t, parseBytesTail rest with
    | some b, some bs => some (b :: bs)
    | _, _ => none
  | _ => none

/-- The commands of one line (`30_encoding.md` R59): none for an empty or comment line, one for a command,
the expansion for a pseudo-instruction (R60). -/
def parseTokens : List (List Char) → Option (List Instr)
  | [] => some []
  | ['C', 'A', 'L', 'C'] :: rest => (parseBytes rest).map fun bs => (Pseudo.crcCalc bs).expand
  | ['V', 'E', 'R', 'I', 'F', 'Y'] :: rest => (parseBytes rest).map fun bs => (Pseudo.crcVerify bs).expand
  | ['E', 'N', 'C', 'O', 'D', 'E'] :: cap :: [','] :: rest =>
    match parseCap cap, parseBytes rest with
    | some c, some bs => some (Pseudo.encodeFrame c bs).expand
    | _, _ => none
  | ['D', 'E', 'C', 'O', 'D', 'E'] :: cap :: [','] :: rest =>
    match parseCap cap, parseBytes rest with
    | some c, some bs => some (Pseudo.decodeFrame c bs).expand
    | _, _ => none
  | [m] =>
    if m = mnemonic .crcClr then some [.crcClr]
    else if m = mnemonic .encEnd then some [.encEnd]
    else if m = mnemonic .decEnd then some [.decEnd]
    else none
  | [m, t] =>
    if m = mnemonic .crcUpd then (parseByte t).map fun b => [.crcUpd b]
    else if m = mnemonic .encPut then (parseByte t).map fun b => [.encPut b]
    else if m = mnemonic .decPut then (parseByte t).map fun b => [.decPut b]
    else if m = mnemonic .encStart then (parseCap t).map fun c => [.encStart c]
    else if m = mnemonic .decStart then (parseCap t).map fun c => [.decStart c]
    else none
  | _ => none

/-- The commands of one line of text. -/
def parseLine (line : List Char) : Option (List Instr) := parseTokens (tokensFrom [] line)

/-- A program: its lines top to bottom (`30_encoding.md` R59), none if some line is not of the syntax. -/
def assembleFrom (line : List Char) : List Char → Option (List Instr)
  | [] => parseLine line.reverse
  | ch :: rest =>
    if ch = '\n' then
      match parseLine line.reverse, assembleFrom [] rest with
      | some xs, some ys => some (xs ++ ys)
      | _, _ => none
    else assembleFrom (ch :: line) rest

/-- Assemble a program text into its command sequence (`30_encoding.md` R59, R60). -/
def assemble (text : List Char) : Option (List Instr) := assembleFrom [] text

end Sys2Proof.Machine
end

