-- ==== Sys2Proof/Tests/Slice0.lean ====
section
/-! SUPPORT. Small tests with expected results taken from the spec (the vector or rule is named at each),
and one witness for the hypotheses of every statement that has some. -/

namespace Sys2Proof.Tests

open Sys2Proof.Machine

set_option maxRecDepth 4000

/-! ### Helpers -/

/-- A block built with the given reserved bytes and small buffers, after reset. -/
def block (c : ReservedBytes) (outSize msgSize : Nat) : State :=
  { State.reset with cfg := { bytes := c, outSize := outSize, msgSize := msgSize } }

/-- A block of `CFG_REF` with the registers of ENC given. -/
def encAt (state : UnitState) (err : ErrorCode) (cap len : Cap) (crc : Byte) (buf : Memory) : State :=
  { block .cfgRef 16 16 with enc := { state := state, err := err, cap := cap, len := len, crc := crc, buf := buf } }

/-- A block of `CFG_REF` with the registers of DEC given. -/
def decAt (state : UnitState) (err : ErrorCode) (cap len : Cap) (crc : Byte) (esc : Bool) (buf : Memory) : State :=
  { block .cfgRef 16 16 with
    dec := { state := state, err := err, cap := cap, len := len, crc := crc, buf := buf }
    decEsc := esc }

/-- What an answer leaves in a place, if it is a next state. -/
def look {α : Type} (f : State → α) : Host.Outcome State Fault Refusal → Option α
  | .next s => some (f s)
  | .fault _ => none
  | .refused _ => none

/-- The reason of a refusal. -/
def refusalOf : Host.Outcome State Fault Refusal → Option Refusal
  | .next _ => none
  | .fault _ => none
  | .refused r => some r

/-- One step of a block to which a word is presented. -/
def present (w : Nat) (s : State) : Host.Outcome State Fault Refusal := step (s.withFetchWord 24 w)

/-! ### WellFormed: each check refuses an ill-formed term -/

/-- `20_memory.md` R40. -/
theorem test_wf_encStart_too_large : Instr.wellFormed (block .cfgRef 8 8).cfg (.encStart 9) = false := by decide

theorem test_wf_encStart_exact : Instr.wellFormed (block .cfgRef 8 8).cfg (.encStart 8) = true := by decide

/-- `20_memory.md` R40. -/
theorem test_wf_decStart_too_large : Instr.wellFormed (block .cfgRef 8 8).cfg (.decStart 9) = false := by decide

/-- `00_scope.md` R5: each of the six inequalities, broken alone. -/
theorem test_wf_bytes_distinct :
    ReservedBytes.distinctBytes 1 1 3 4 = false ∧ ReservedBytes.distinctBytes 1 2 1 4 = false ∧
    ReservedBytes.distinctBytes 1 2 3 1 = false ∧ ReservedBytes.distinctBytes 1 2 2 4 = false ∧
    ReservedBytes.distinctBytes 1 2 3 2 = false ∧ ReservedBytes.distinctBytes 1 2 3 3 = false ∧
    ReservedBytes.distinctBytes 1 2 3 4 = true := by decide

/-! ### Decoding: a word of every row, bit by bit from `30_encoding.md` R56 -/

theorem test_decode_crcClr : decode 0b000100000000000000000000 = .ok .crcClr := by decide
theorem test_decode_crcUpd : decode 0b000100010000000011110100 = .ok (.crcUpd 0xF4) := by decide
theorem test_decode_encStart : decode 0b001000001000000000000001 = .ok (.encStart 0x8001) := by decide
theorem test_decode_encPut : decode 0b001000010000000011011110 = .ok (.encPut 0xDE) := by decide
theorem test_decode_encEnd : decode 0b001000100000000000000000 = .ok .encEnd := by decide
theorem test_decode_decStart : decode 0b001100000000000000000110 = .ok (.decStart 6) := by decide
theorem test_decode_decPut : decode 0b001100010000000010000001 = .ok (.decPut 0x81) := by decide
theorem test_decode_decEnd : decode 0b001100100000000000000000 = .ok .decEnd := by decide

/-- `30_encoding.md` R57: one word of every kind of its list, and the all-zero and all-one words. -/
theorem test_decode_reserved :
    decode 0x000000 = .error .reservedUnit ∧ decode 0xFFFFFF = .error .reservedUnit ∧
    decode 0x120000 = .error .reservedFunction ∧ decode 0x230000 = .error .reservedFunction ∧
    decode 0x310100 = .error .operandNotByte ∧ decode 0x100001 = .error .operandNotZero := by decide

theorem test_decodeTableWord :
    decodeTableWord 24 0x2100DE = some (.encPut 0xDE) ∧ decodeTableWord 24 0x1210000 = some (.encPut 0) ∧
    decodeTableWord 24 0x000000 = none := by decide

/-- `30_encoding.md` R61 by hand: at CAPW 4 a 16-bit word; at CAPW 20 a 28-bit word. -/
theorem test_decodeAt :
    decodeAt 4 0x2009 = .ok (.encStart, 9) ∧ decodeAt 4 0x2010 = .error .capacityTooWide ∧
    decodeAt 20 0x20FFFFF = .ok (.encStart, 0xFFFFF) ∧ decodeAt 20 0x2100100 = .error .operandNotByte := by decide

/-! ### One step of each command (`95_test_vectors.md` sections 4 and 5, `40_crc.md` R74, R75) -/

/-- R74's example. -/
theorem test_crcClr : look (·.crc) (present 0x100000 { block .cfgRef 16 16 with crc := 0xF4 }) = some 0x00 := by decide

/-- R75's second example. -/
theorem test_crcUpd : look (·.crc) (present 0x110039 { block .cfgRef 16 16 with crc := 0xC7 }) = some 0xF4 := by decide

/-- EC2: out of `ERR`. -/
theorem test_encStart :
    look (·.enc) (present 0x200004 (encAt .err .capacityExceeded 8 8 0x24 [])) =
      some { state := .body, err := .none, cap := 4, len := 1, crc := 0x00, buf := [(0, 0x00)] } := by decide

/-- EC3: capacity 0. -/
theorem test_encStart_zero :
    look (fun s => (s.enc.state, s.enc.err, s.enc.buf)) (present 0x200000 (encAt .done .none 9 9 0x24 [])) =
      some (.err, .capacityExceeded, []) := by decide

/-- EC4: a delimiter in the payload. -/
theorem test_encPut :
    look (·.enc) (present 0x210000 (encAt .body .none 9 3 0x26 [])) =
      some { state := .body, err := .none, cap := 9, len := 5, crc := 0xF2, buf := [(3, 0x33), (4, 0x34)] } := by decide

/-- EC6: one free cell and an escape pair. -/
theorem test_encPut_overflow :
    look (fun s => (s.enc.state, s.enc.err, s.enc.crc)) (present 0x210000 (encAt .body .none 4 3 0x26 [])) =
      some (.err, .capacityExceeded, 0xF2) := by decide

/-- EC10: a checksum that must be escaped. -/
theorem test_encEnd :
    look (·.enc) (present 0x220000 (encAt .body .none 9 2 0x33 [])) =
      some { state := .done, err := .none, cap := 9, len := 5, crc := 0x33,
             buf := [(2, 0x33), (3, 0x35), (4, 0x00)] } := by decide

/-- EC9: no room for the trailing delimiter. -/
theorem test_encEnd_overflow :
    look (fun s => (s.enc.state, s.enc.err)) (present 0x220000 (encAt .body .none 8 7 0x24 [])) =
      some (.err, .capacityExceeded) := by decide

/-- DC3: in the middle of a frame, with an escape pending. -/
theorem test_decStart :
    look (fun s => (s.dec, s.decEsc)) (present 0x300000 (decAt .body .none 6 2 0x26 true [])) =
      some ({ state := .body, err := .none, cap := 0, len := 0, crc := 0x00, buf := [] }, false) := by decide

/-- DC6: the continuation that stands for `ESC`. -/
theorem test_decPut :
    look (fun s => (s.dec, s.decEsc)) (present 0x310035 (decAt .body .none 6 2 0x26 true [])) =
      some ({ state := .body, err := .none, cap := 6, len := 3, crc := 0x6B, buf := [(2, 0x33)] }, false) := by decide

/-- `60_exceptions.md` R137, D14: a bad continuation with the buffer full. -/
theorem test_decPut_bad_continuation :
    look (fun s => (s.dec.state, s.dec.err, s.decEsc)) (present 0x310036 (decAt .body .none 1 1 0x07 true [])) =
      some (.err, .malformedEscape, false) := by decide

/-- DC16: a single verified byte gives the empty payload. -/
theorem test_decEnd :
    look (fun s => (s.dec.state, s.dec.err, s.dec.len)) (present 0x320000 (decAt .body .none 6 1 0x00 false [])) =
      some (.done, .none, 0) := by decide

/-- DC14: a pending escape wins over the other tests. -/
theorem test_decEnd_pending :
    look (fun s => (s.dec.state, s.dec.err)) (present 0x320000 (decAt .body .none 6 6 0x00 true [])) =
      some (.err, .malformedEscape) := by decide

/-! ### The machine around the commands -/

/-- `30_encoding.md` R57, U8. -/
theorem test_reserved_word_refused :
    refusalOf (present 0x000000 (block .cfgRef 16 16)) = some (.reservedWord 0x000000) := by decide

/-- `20_memory.md` R40, U7. -/
theorem test_start_beyond_buffer_refused :
    refusalOf (present 0x200011 (block .cfgRef 16 16)) = some (.capacityBeyondBuffer .out 17) := by decide

/-- `70_reset_and_hazards.md` R150, R151. -/
theorem test_external_reset :
    look (fun s => (s.enc.state, s.enc.cap, s.enc.buf, s.port))
      (step { encAt .done .none 9 5 0x33 [(2, 0x33)] with port := [.reset, .command 0x100000] }) =
      some (.idle, 0, [(2, 0x33)], [.command 0x100000]) := by decide

/-- `20_memory.md` R33: `MSG[0]` of a unit in `DONE` with one payload byte (F25), and an index the platform
has no cell for. -/
theorem test_hostRead :
    (hostRead (decAt .done .none 2 1 0x00 false [(0, 0x01), (1, 0x07)]) .msg 0).toOption = some 0x01 ∧
    (hostRead (decAt .done .none 2 1 0x00 false [(0, 0x01), (1, 0x07)]) .msg 16).toOption = none := by decide

/-- The concrete vector of the source (`95_test_vectors.md` S4, S5) in the function layer. -/
theorem test_concrete_vector :
    wire .cfgRef [0xDE, 0xAD, 0x00, 0xBE, 0xEF] = [0x00, 0xDE, 0xAD, 0x33, 0x34, 0xBE, 0xEF, 0x24, 0x00] ∧
    (decodeFrame .cfgRef [0xDE, 0xAD, 0x33, 0x34, 0xBE, 0xEF, 0x24] 6).toOption =
      some [0xDE, 0xAD, 0x00, 0xBE, 0xEF] := by decide

/-- `30_encoding.md` R59, R60 with `43_frame_macros.md` R117. -/
theorem test_assemble :
    assemble "ENC.PUT 0xDE  # a byte\n\nENCODE 9, [0b1, 2]".toList =
      some [.encPut 0xDE, .encStart 9, .encPut 1, .encPut 2, .encEnd] ∧
    assemble "enc.end".toList = none ∧ assemble "CRC.UPD 256".toList = none := by decide

/-! ### Witnesses: states and operands that meet the hypotheses of each statement -/

theorem witness_EncodeOfDecodeIsTheWord : decode 0x20FFFF = .ok (.encStart 0xFFFF) := by decide

theorem witness_ReservedWordsAreRefused :
    (∀ o ∈ Op.all, (0x330000 : CommandWord) &&& o.maskWord ≠ o.matchWord) ∧
    ({ block .cfgRef 16 16 with port := [.command 0x330000] } : State).port = .command 0x330000 :: [] := by decide

/-- Operands that fit at the boundary of each form, a word that decodes, and operand bits that do not fit. -/
theorem witness_CommandWordAtEveryWidth :
    operandFits 16 .none 0 = true ∧ operandFits 4 .byte 255 = true ∧ operandFits 1 .capacity 1 = true ∧
    operandFits 20 .capacity (2 ^ 20 - 1) = true ∧
    (0x200F < 2 ^ (8 + max 4 8) ∧ decodeAt 4 0x200F = .ok (.encStart, 15)) ∧
    (16 < 2 ^ max 4 8 ∧ operandFits 4 Op.encStart.form 16 = false) ∧
    (256 < 2 ^ max 16 8 ∧ operandFits 16 Op.decPut.form 256 = false) ∧
    (1 < 2 ^ max 16 8 ∧ operandFits 16 Op.decEnd.form 1 = false) := by decide

theorem witness_StepRunsTheDecodedCommand :
    ({ block .cfgRef 16 16 with port := [.command 0x2100DE, .reset] } : State).port = .command 0x2100DE :: [.reset] ∧
    decode 0x2100DE = .ok (.encPut 0xDE) := by decide

theorem witness_NoInputHoldsTheState : State.reset.port = [] := rfl

theorem witness_PresentedProgramRunsInOrder : (block .cfgRef 16 16).port = [] := rfl

theorem witness_ExternalResetClearsRegistersOnly :
    ({ encAt .done .none 9 5 0x33 [(2, 0x33)] with port := [.reset] } : State).port = .reset :: [] := rfl

/-- A sound state in the middle of a frame, with a command at its port. -/
def midFrame : State := { encAt .body .none 4 3 0x26 [(0, 0x00), (1, 0xDE), (2, 0xAD)] with port := [.command 0x2100BE] }

theorem witness_EveryStepKeepsSound : midFrame.Sound ∧ (look (fun s => s.enc.len) (step midFrame)) = some 4 := by
  refine ⟨⟨⟨?_, ?_, ?_, ?_, ?_, ?_, ?_⟩, ⟨?_, ?_, ?_, ?_, ?_, ?_, ?_⟩, ?_, ?_⟩, ?_⟩ <;> decide

theorem witness_EveryCommandCompletes :
    Instr.wellFormed (block .cfgRef 9 16).cfg (.encStart 9) = true ∧
    (∃ t, exec (.encStart 9) (block .cfgRef 9 16) = .next t) ∧
    ∃ t, exec (.decStart 16) (block .cfgRef 9 16) = .next t := ⟨by decide, ⟨_, rfl⟩, ⟨_, rfl⟩⟩

theorem witness_StartBeyondTheBufferIsRefused :
    (block .cfgRef 8 9).cfg.outSize < (9 : Cap).toNat ∧ (block .cfgRef 8 9).cfg.msgSize < (10 : Cap).toNat := by decide

theorem witness_ConfigurationIsValidAndConstant : ∃ t, step midFrame = .next t := ⟨_, rfl⟩

/-- Two states that agree on ENC only; a command to ENC runs in both, and commutes with a command to DEC. -/
theorem witness_UnitsShareNoState :
    midFrame.cfg = (encAt .body .none 4 3 0x26 [(0, 0x00), (1, 0xDE), (2, 0xAD)]).cfg ∧
    midFrame.enc = ({ encAt .body .none 4 3 0x26 [(0, 0x00), (1, 0xDE), (2, 0xAD)] with crc := 0x12 } : State).enc ∧
    (∃ a, exec (.encPut 0xBE) midFrame = .next a ∧ ∃ b, exec (.decStart 3) a = .next b) ∧
    (Instr.encPut 0xBE).component ≠ (Instr.decStart 3).component :=
  ⟨rfl, rfl, ⟨_, rfl, _, rfl⟩, by decide⟩

theorem witness_BuffersAreReachedAsTheMapSays :
    (∃ t, exec (.decPut 0x41) (decAt .body .none 4 0 0x00 false []) = .next t) ∧
    (∃ t, exec .decEnd (decAt .body .none 4 1 0x00 false [(0, 0x00)]) = .next t) ∧ decPutByte .decEnd = none :=
  ⟨⟨_, rfl⟩, ⟨_, rfl⟩, rfl⟩

theorem witness_CrcIsLinearAndCatchesOneByte :
    ([0x01, 0x02] : List Byte).length = ([0xFF, 0x00] : List Byte).length ∧ (0x01 : Byte) ≠ 0x81 ∧
    2 < (([0x31, 0x32] : List Byte) ++ [crcCalc [0x31, 0x32]]).length ∧
    (([0x31, 0x32] : List Byte) ++ [crcCalc [0x31, 0x32]])[2]? ≠ some 0x00 := by decide

theorem witness_EscapeMapping :
    (0x41 : Byte) ≠ ReservedBytes.cfgRef.delim ∧ (0x41 : Byte) ≠ ReservedBytes.cfgRef.esc := by decide

theorem witness_WireFormatIsUnambiguous :
    escaped .cfgRef [0x41, 0x00, 0x33] = [0x41] ++ ReservedBytes.cfgRef.esc :: [0x34, 0x33, 0x35] ∧
    escaped .cfgRef [0x41, 0x00, 0x33] = [0x41, 0x33, 0x34] ++ ReservedBytes.cfgRef.esc :: [0x35] := by decide

theorem witness_FrameLengthAndBounds :
    (∀ b ∈ ([0x01] : List Byte) ++ [crcCalc [0x01]], b ≠ ReservedBytes.cfgRef.delim ∧ b ≠ ReservedBytes.cfgRef.esc) ∧
    (∀ b ∈ ([0x00, 0x00] : List Byte) ++ [crcCalc [0x00, 0x00]],
      b = ReservedBytes.cfgRef.delim ∨ b = ReservedBytes.cfgRef.esc) ∧
    (0x00 ≠ ReservedBytes.cfgB.delim ∧ 0x00 ≠ ReservedBytes.cfgB.esc) ∧
    (0x00 = ReservedBytes.cfgRef.delim ∨ 0x00 = ReservedBytes.cfgRef.esc) := by decide

theorem witness_EncodeCapacityBoundary :
    2 * ([0x00] : List Byte).length + 4 ≤ 6 ∧ 2 ≤ 2 ∧
    encodeFrame .cfgB [] 3 = .ok (wire .cfgB []) ∧ encodeFrame .cfgRef [] 3 = .error .capacityExceeded := by
  refine ⟨by decide, by decide, rfl, rfl⟩

theorem witness_EncStartBeginsAFrame :
    (16 : Cap).toNat ≤ (block .cfgRef 16 16).cfg.outSize ∧ (16 : Cap) ≠ 0 ∧
    (0 : Cap).toNat ≤ (block .cfgRef 0 0).cfg.outSize := by decide

/-- Outside `BODY`; in `BODY` with exactly enough room, with one cell too few, and with none. -/
theorem witness_EncPutWritesTheEscapedByte :
    State.reset.enc.state ≠ .body ∧ midFrame.enc.state = .body ∧
    midFrame.enc.len.toNat + (escape midFrame.cfg.bytes 0xBE).length ≤ midFrame.enc.cap.toNat ∧
    midFrame.enc.cap.toNat < midFrame.enc.len.toNat + (escape midFrame.cfg.bytes 0x00).length ∧
    (encAt .body .none 4 4 0x26 []).enc.len.toNat ≤ (encAt .body .none 4 4 0x26 []).enc.cap.toNat := by decide

/-- EC8 (exactly enough room) and EC9 (one cell too few). -/
theorem witness_EncEndWritesChecksumAndDelimiter :
    (encAt .body .none 9 7 0x24 []).enc.state = .body ∧ (encAt .body .none 9 7 0x24 []).enc.err = .none ∧
    7 + (escape ReservedBytes.cfgRef 0x24 ++ [ReservedBytes.cfgRef.delim]).length ≤ 9 ∧
    8 < 7 + (escape ReservedBytes.cfgRef 0x24 ++ [ReservedBytes.cfgRef.delim]).length ∧
    (encAt .done .none 9 9 0x24 []).enc.state ≠ .body := by decide

theorem witness_EncTransitions :
    (∃ t, exec (.encStart 0) (encAt .err .capacityExceeded 8 8 0x24 []) = .next t) ∧
    (encAt .body .none 9 7 0x24 []).enc.len.toNat ≤ (encAt .body .none 9 7 0x24 []).enc.cap.toNat ∧
    (State.reset.enc.state = .idle ∧ (encAt .done .none 9 9 0x24 []).enc.state = .done ∧
      (encAt .err .capacityExceeded 8 8 0x24 []).enc.state = .err) := ⟨⟨_, rfl⟩, by decide, by decide⟩

theorem witness_EncFrame :
    (∃ t, exec (.encStart 4) midFrame = .next t) ∧ midFrame.enc.len.toNat ≤ midFrame.enc.cap.toNat ∧
    (∃ t, exec (.encPut 0x00) midFrame = .next t) ∧ ∃ t, exec .encEnd midFrame = .next t :=
  ⟨⟨_, rfl⟩, by decide, ⟨_, rfl⟩, ⟨_, rfl⟩⟩

/-- A sequence with no second `ENC.START`, with commands of the other units in between: it overflows. -/
theorem witness_EncNeverWritesPastTheCapacity :
    (∀ i ∈ [Instr.encPut 0x00, .crcUpd 0x01, .encPut 0x00, .decStart 2, .encEnd], startsEnc i = false) ∧
    look (fun s => s.enc.state) (execAll
      (.encStart 4 :: [.encPut 0x00, .crcUpd 0x01, .encPut 0x00, .decStart 2, .encEnd]) (block .cfgRef 16 16)) =
      some .err := by decide

/-- A sequence that stays in `BODY`. -/
theorem witness_EncBodyHoldsTheEscapedPrefix :
    (∀ i ∈ [Instr.encPut 0x00, .crcUpd 0x01, .encPut 0x41], startsEnc i = false) ∧
    look (fun s => s.enc.state) (execAll (.encStart 4 :: [.encPut 0x00, .crcUpd 0x01, .encPut 0x41])
      (block .cfgRef 16 16)) = some .body := by decide

/-- Both cases of the match: `OK` (E24's payload) and `CapacityExceeded`. -/
theorem witness_EncodeAgreesWithTheFunction :
    (9 : Cap).toNat ≤ (block .cfgRef 16 16).cfg.outSize ∧
    (encodeFrame .cfgRef [0xDE, 0xAD, 0x00, 0xBE, 0xEF] 9).toOption.isSome = true ∧
    (encodeFrame .cfgRef [0xDE, 0xAD, 0x00, 0xBE, 0xEF] 8).toOption = none := by decide

theorem witness_DecStartBeginsAFrame :
    (16 : Cap).toNat ≤ (block .cfgRef 16 16).cfg.msgSize ∧ (0 : Cap).toNat ≤ (block .cfgRef 0 0).cfg.msgSize := by decide

/-- DC17, DC5, DC6, DC7, DC4 and DC8: one state and byte for each clause. -/
theorem witness_DecPutTakesOneByte :
    (decAt .done .none 6 5 0x00 false []).dec.state ≠ .body ∧
    (decAt .body .none 6 2 0x26 true []).dec.state = .body ∧ (decAt .body .none 6 2 0x26 true []).decEsc = true ∧
    (0x34 : Byte) = ReservedBytes.cfgRef.escDelim ∧ (0x35 : Byte) = ReservedBytes.cfgRef.escEsc ∧
    ((0x33 : Byte) ≠ ReservedBytes.cfgRef.escDelim ∧ (0x33 : Byte) ≠ ReservedBytes.cfgRef.escEsc) ∧
    (decAt .body .none 6 2 0x26 false []).decEsc = false ∧ (0x33 : Byte) = ReservedBytes.cfgRef.esc ∧
    (0x00 : Byte) ≠ ReservedBytes.cfgRef.esc := by decide

/-- DC18, DC14, DC15, DC13 and DC16: one state for each clause. -/
theorem witness_DecEndChecksAndFinishes :
    (decAt .idle .none 0 0 0x00 false []).dec.state ≠ .body ∧ (decAt .body .none 6 6 0x00 true []).decEsc = true ∧
    (decAt .body .none 6 0 0x00 false []).dec.len = 0 ∧
    ((decAt .body .none 6 6 0x07 false []).dec.len ≠ 0 ∧ (decAt .body .none 6 6 0x07 false []).dec.crc ≠ 0x00) ∧
    ((decAt .body .none 6 1 0x00 false []).dec.state = .body ∧ (decAt .body .none 6 1 0x00 false []).decEsc = false ∧
      (decAt .body .none 6 1 0x00 false []).dec.len ≠ 0 ∧ (decAt .body .none 6 1 0x00 false []).dec.crc = 0x00 ∧
      (decAt .body .none 6 1 0x00 false []).dec.err = .none) := by decide

theorem witness_DecTransitions :
    (∃ t, exec (.decStart 0) (decAt .err .malformedEscape 4 1 0x07 false []) = .next t) ∧
    (decAt .body .none 6 2 0x26 true []).dec.state = .body ∧
    (State.reset.dec.state = .idle ∧ (decAt .done .none 6 5 0x00 false []).dec.state = .done ∧
      (decAt .err .malformedEscape 4 1 0x07 false []).dec.state = .err) := ⟨⟨_, rfl⟩, by decide, by decide⟩

theorem witness_DecFrame :
    (∃ t, exec (.decStart 4) (decAt .body .none 6 2 0x26 true []) = .next t) ∧
    (∃ t, exec (.decPut 0x34) (decAt .body .none 6 2 0x26 true []) = .next t) ∧
    ∃ t, exec .decEnd (decAt .body .none 6 2 0x26 true []) = .next t := ⟨⟨_, rfl⟩, ⟨_, rfl⟩, ⟨_, rfl⟩⟩

theorem witness_DecNeverWritesPastTheCapacity :
    (∀ i ∈ [Instr.decPut 0x41, .crcUpd 0x01, .decPut 0x42, .encStart 2, .decEnd], startsDec i = false) ∧
    look (fun s => s.dec.state) (execAll
      (.decStart 1 :: [.decPut 0x41, .crcUpd 0x01, .decPut 0x42, .encStart 2, .decEnd]) (block .cfgRef 16 16)) =
      some .err := by decide

/-- A sequence that stays in `BODY` with no escape pending, and one with an escape pending. -/
theorem witness_DecBodyHoldsTheUnescapedPrefix :
    (∀ i ∈ [Instr.decPut 0x33, .crcUpd 0x01, .decPut 0x34, .decPut 0x33], startsDec i = false) ∧
    look (fun s => (s.dec.state, s.decEsc)) (execAll (.decStart 1 :: [.decPut 0x33, .crcUpd 0x01, .decPut 0x34])
      (block .cfgRef 16 16)) = some (.body, false) ∧
    look (fun s => (s.dec.state, s.decEsc)) (execAll
      (.decStart 1 :: [.decPut 0x33, .crcUpd 0x01, .decPut 0x34, .decPut 0x33]) (block .cfgRef 16 16)) =
      some (.body, true) := by decide

/-- Every case of the match: F25 (`OK`), F26, F18 and F27 (the three errors). -/
theorem witness_DecodeAgreesWithTheFunction :
    (2 : Cap).toNat ≤ (block .cfgRef 16 16).cfg.msgSize ∧
    decodeFrame .cfgRef [0x01, 0x07] 2 = .ok [0x01] ∧ decodeFrame .cfgRef [0x01, 0x07] 1 = .error .capacityExceeded ∧
    decodeFrame .cfgRef [0x01, 0x33, 0x36] 1 = .error .malformedEscape ∧
    decodeFrame .cfgRef [0x07] 1 = .error .checksumMismatch := ⟨by decide, rfl, rfl, rfl, rfl⟩

theorem witness_DecodeOfEncodeIsThePayload :
    ([0x00, 0x33] : List Byte).length + 1 ≤ 3 ∧ 2 ≤ ([0x00, 0x33] : List Byte).length := by decide

theorem witness_MachineRoundTrip :
    (9 : Cap).toNat ≤ (block .cfgRef 16 16).cfg.outSize ∧ (6 : Cap).toNat ≤ (block .cfgRef 16 16).cfg.msgSize ∧
    frameLen (block .cfgRef 16 16).cfg.bytes [0xDE, 0xAD, 0x00, 0xBE, 0xEF] ≤ (9 : Cap).toNat ∧
    ([0xDE, 0xAD, 0x00, 0xBE, 0xEF] : List Byte).length + 1 ≤ (6 : Cap).toNat := by decide

/-- (a) a flip in an ordinary byte, the one that makes a raw `DELIM` among them; (b) a flip in a
continuation byte, to the other continuation (bit 0) and to neither (bit 7). -/
theorem witness_OneFlippedBit :
    (([0x80, 0x00] : List Byte) ++ [crcCalc [0x80, 0x00]] = [] ++ 0x80 :: [0x00, crcCalc [0x80, 0x00]] ∧
      (0x80 : Byte) ≠ ReservedBytes.cfgRef.delim ∧ (0x80 : Byte) ≠ ReservedBytes.cfgRef.esc ∧
      (0x80 : Byte) ^^^ (1#8 <<< 7) = ReservedBytes.cfgRef.delim ∧
      (0x80 : Byte) ^^^ (1#8 <<< 7) ≠ ReservedBytes.cfgRef.esc ∧ ([0x80, 0x00] : List Byte).length + 1 ≤ 3) ∧
    (([0x80, 0x00] : List Byte) ++ [crcCalc [0x80, 0x00]] = [0x80] ++ 0x00 :: [crcCalc [0x80, 0x00]] ∧
      escape .cfgRef 0x00 = [ReservedBytes.cfgRef.esc, 0x34] ∧
      (0x34 : Byte) ^^^ (1#8 <<< 0) = ReservedBytes.cfgRef.escEsc ∧
      (0x34 : Byte) ^^^ (1#8 <<< 7) ≠ ReservedBytes.cfgRef.escDelim ∧
      (0x34 : Byte) ^^^ (1#8 <<< 7) ≠ ReservedBytes.cfgRef.escEsc) := by decide

theorem witness_JoinedFramesVerify :
    ([0x01] : List Byte).length + ([0x01] : List Byte).length + 2 ≤ 4 ∧ ReservedBytes.cfgRef.delim = 0x00 ∧
    ([0x01] : List Byte).length + 3 ≤ 4 := by decide

theorem witness_DecodeCapacitySuffices :
    ([0x01, 0x07] : List Byte).length ≤ 2 ∧ scan .cfgRef [0x01, 0x07] 2 = .ok [0x01, 0x07] := ⟨by decide, rfl⟩

/-- Each way into `ERR`: from `ENC.START 0`, `ENC.PUT` (EC7), `ENC.END` (EC9), `DEC.PUT` (DC11, DC7) and
`DEC.END` (DC14, DC15, DC13); the two ENC states meet the premise on `enc_len`. -/
theorem witness_OnlyTheseCommandsRaise :
    (encAt .body .none 4 4 0x26 []).enc.len.toNat ≤ (encAt .body .none 4 4 0x26 []).enc.cap.toNat ∧
    (encAt .body .none 8 7 0x24 []).enc.len.toNat ≤ (encAt .body .none 8 7 0x24 []).enc.cap.toNat ∧
    look (fun s => s.enc.state) (exec (.encStart 0) (block .cfgRef 16 16)) = some .err ∧
    look (fun s => s.enc.state) (exec (.encPut 0x41) (encAt .body .none 4 4 0x26 [])) = some .err ∧
    look (fun s => s.enc.state) (exec .encEnd (encAt .body .none 8 7 0x24 [])) = some .err ∧
    look (fun s => s.dec.err) (exec (.decPut 0x41) (decAt .body .none 2 2 0x26 false [])) = some .capacityExceeded ∧
    look (fun s => s.dec.err) (exec (.decPut 0x33) (decAt .body .none 6 2 0x26 true [])) = some .malformedEscape ∧
    look (fun s => s.dec.err) (exec .decEnd (decAt .body .none 6 6 0x00 true [])) = some .malformedEscape ∧
    look (fun s => s.dec.err) (exec .decEnd (decAt .body .none 6 0 0x00 false [])) = some .malformedEscape ∧
    look (fun s => s.dec.err) (exec .decEnd (decAt .body .none 6 6 0x07 false [])) = some .checksumMismatch := by decide

theorem witness_ErrorsLastUntilStart :
    (encAt .err .capacityExceeded 8 8 0x24 []).enc.state = .err ∧
    (∀ i ∈ [Instr.encPut 0x41, .decStart 3, .encEnd], startsEnc i = false) ∧
    (∃ t, execAll [.encPut 0x41, .decStart 3, .encEnd] (encAt .err .capacityExceeded 8 8 0x24 []) = .next t) ∧
    (decAt .err .malformedEscape 4 1 0x07 true []).dec.state = .err ∧
    (∀ i ∈ [Instr.decPut 0x41, .encStart 3, .decEnd], startsDec i = false) ∧
    ∃ t, execAll [.decPut 0x41, .encStart 3, .decEnd] (decAt .err .malformedEscape 4 1 0x07 true []) = .next t :=
  ⟨rfl, by decide, ⟨_, rfl⟩, rfl, by decide, ⟨_, rfl⟩⟩

/-- Two states with one configuration and different pasts. -/
theorem witness_PseudoResultsForgetThePast :
    (block .cfgRef 16 16).cfg = midFrame.cfg ∧
    (∃ t, execPseudo (.encodeFrame 6 [0x01]) (block .cfgRef 16 16) = .next t) ∧
    (∃ t, execPseudo (.decodeFrame 2 [0x01, 0x07]) (block .cfgRef 16 16) = .next t) ∧
    ∃ t, execPseudo (.crcCalc [0x01]) (block .cfgRef 16 16) = .next t := ⟨rfl, ⟨_, rfl⟩, ⟨_, rfl⟩, ⟨_, rfl⟩⟩

theorem witness_OutputsShowTheRegisters :
    (encAt .done .none 9 5 0x33 []).enc.state = .done ∧ (decAt .done .none 6 5 0x00 false []).dec.state = .done := by decide

/-- Two states that differ in hidden registers, in a length outside `DONE` and in the cells beyond the
result, and agree on what the statement asks. -/
theorem witness_HiddenStateIsHidden :
    let s : State := decAt .done .none 2 1 0x00 false [(0, 0x01), (1, 0x07)]
    let s' : State := { decAt .done .none 3 1 0x55 true [(0, 0x01), (1, 0x99)] with enc := s.enc }
    s ≠ s' ∧ s.cfg = s'.cfg ∧ s.draws = s'.draws ∧ s.crc = s'.crc ∧
    (∀ sp ∈ [Space.out, Space.msg], (s.frameUnit sp).state = (s'.frameUnit sp).state ∧
      (s.frameUnit sp).err = (s'.frameUnit sp).err ∧ (s.frameUnit sp).len = (s'.frameUnit sp).len) ∧
    (∀ i, i < s.dec.len.toNat → Memory.read s.dec.buf i = Memory.read s'.dec.buf i) := by
  refine ⟨by decide, rfl, rfl, rfl, by decide, by decide⟩

theorem witness_HostReadsExistingCells :
    (0 : Cap).toNat < (decAt .done .none 2 1 0x00 false [(0, 0x01), (1, 0x07)]).cfg.size .msg ∧
    (0 : Cap).toNat < (decAt .done .none 2 1 0x00 false [(0, 0x01), (1, 0x07)]).dec.len.toNat ∧
    Memory.read (decAt .done .none 2 1 0x00 false [(0, 0x01), (1, 0x07)]).dec.buf 0 = some 0x01 ∧
    (decAt .done .none 2 1 0x00 false []).cfg.size .msg ≤ (16 : Cap).toNat := by decide

end Sys2Proof.Tests
end

section
/-! SUPPORT. The three units share no state (`00_scope.md` R8): what a command does to its own unit is a function of that
unit and the configuration (`exec_local`). Commutation follows from this and the frame rule `exec_frame`. -/

namespace Sys2Proof.Machine

/-- Two states hold the same registers and buffer of one unit. -/
@[simp] def State.SameUnit (s s' : State) : Component → Prop
  | .crc => s.crc = s'.crc
  | .enc => s.enc = s'.enc
  | .dec => s.dec = s'.dec ∧ s.decEsc = s'.decEsc

theorem State.SameUnit.symm {s s' : State} {k : Component} (h : s.SameUnit s' k) : s'.SameUnit s k := by
  cases k with
  | crc => exact Eq.symm h
  | enc => exact Eq.symm h
  | dec => exact ⟨h.1.symm, h.2.symm⟩

theorem State.SameUnit.trans {s s' s'' : State} {k : Component} (h : s.SameUnit s' k) (h' : s'.SameUnit s'' k) :
    s.SameUnit s'' k := by
  cases k with
  | crc => exact Eq.trans h h'
  | enc => exact Eq.trans h h'
  | dec => exact ⟨h.1.trans h'.1, h.2.trans h'.2⟩

/-- The form in which the statement of R8 speaks of one unit: a premise for each unit it may be. -/
theorem State.sameUnit_iff {s s' : State} {k : Component} :
    s.SameUnit s' k ↔ (k = .crc → s.crc = s'.crc) ∧ (k = .enc → s.enc = s'.enc) ∧
      (k = .dec → s.dec = s'.dec ∧ s.decEsc = s'.decEsc) := by
  cases k <;> simp

/-- The units, the configuration and the model's own two fields are the whole state. -/
theorem State.eq_of_sameUnit {s s' : State} (hcfg : s.cfg = s'.cfg) (hport : s.port = s'.port)
    (hdraws : s.draws = s'.draws) (hunit : ∀ k, s.SameUnit s' k) : s = s' := by
  obtain ⟨hdec, hesc⟩ := hunit .dec
  have hcrc : s.crc = s'.crc := hunit .crc
  have henc : s.enc = s'.enc := hunit .enc
  cases s
  cases s'
  simp_all only

/-- `exec_frame`, unit by unit. -/
theorem exec_sameUnit_of_ne {i : Instr} {s t : State} {k : Component} (h : exec i s = .next t)
    (hk : k ≠ i.component) : t.SameUnit s k := by
  obtain ⟨-, -, -, hcrc, henc, hdec⟩ := exec_frame h
  cases k with
  | crc => exact hcrc hk.symm
  | enc => exact henc hk.symm
  | dec => exact hdec hk.symm

/-- A command reads only its own unit and the configuration: it runs alike in any two states that agree there. -/
theorem exec_local {i : Instr} {s s' t : State} (hcfg : s.cfg = s'.cfg) (hunit : s.SameUnit s' i.component)
    (h : exec i s = .next t) : ∃ t', exec i s' = .next t' ∧ t'.SameUnit t i.component := by
  cases i with
  | crcClr => cases h; exact ⟨_, rfl, rfl⟩
  | crcUpd imm8 => cases h; exact ⟨_, rfl, congrArg (crcByte · imm8) (Eq.symm hunit)⟩
  | encStart cap =>
    have henc : s.enc = s'.enc := hunit
    obtain ⟨hfits, rfl⟩ := State.ifFits_next.1 h
    exact ⟨_, State.ifFits_next.2 ⟨hcfg ▸ hfits, rfl⟩, by simp [Instr.component, hcfg, henc]⟩
  | encPut imm8 =>
    have henc : s.enc = s'.enc := hunit
    cases h
    exact ⟨_, rfl, by simp [Instr.component, hcfg, henc]⟩
  | encEnd =>
    have henc : s.enc = s'.enc := hunit
    cases h
    exact ⟨_, rfl, by simp [Instr.component, hcfg, henc]⟩
  | decStart cap =>
    obtain ⟨hdec, -⟩ := hunit
    obtain ⟨hfits, rfl⟩ := State.ifFits_next.1 h
    exact ⟨_, State.ifFits_next.2 ⟨hcfg ▸ hfits, rfl⟩, by simp [Instr.component, hdec]⟩
  | decPut imm8 =>
    obtain ⟨hdec, hesc⟩ := hunit
    by_cases hb : s.dec.state = .body
    · simp only [exec, execDecPut, hb, ← hdec, if_true, Host.Outcome.next.injEq] at h ⊢
      subst h
      exact ⟨_, rfl, by simp [Instr.component, hcfg, hesc]⟩
    · simp only [exec, execDecPut, hb, ← hdec, if_false, Host.Outcome.next.injEq] at h ⊢
      subst h
      exact ⟨_, rfl, hdec.symm, hesc.symm⟩
  | decEnd =>
    obtain ⟨hdec, hesc⟩ := hunit
    cases h
    exact ⟨_, rfl, by simp [Instr.component, hdec, hesc]⟩

/-- Commands to different units commute. -/
theorem exec_comm {i j : Instr} {s a b : State} (hij : i.component ≠ j.component) (hi : exec i s = .next a)
    (hj : exec j a = .next b) : ∃ c, exec j s = .next c ∧ exec i c = .next b := by
  obtain ⟨acfg, aport, adraws, -⟩ := exec_frame hi
  obtain ⟨bcfg, bport, bdraws, -⟩ := exec_frame hj
  obtain ⟨c, hc, hcb⟩ := exec_local acfg (exec_sameUnit_of_ne hi hij.symm) hj
  obtain ⟨ccfg, cport, cdraws, -⟩ := exec_frame hc
  obtain ⟨d, hd, hda⟩ := exec_local ccfg.symm (exec_sameUnit_of_ne hc hij).symm hi
  obtain ⟨dcfg, dport, ddraws, -⟩ := exec_frame hd
  have hdb : ∀ k, d.SameUnit b k := by
    intro k
    by_cases hki : k = i.component
    · subst hki
      exact hda.trans (exec_sameUnit_of_ne hj hij).symm
    have hdc := exec_sameUnit_of_ne hd hki
    by_cases hkj : k = j.component
    · subst hkj
      exact hdc.trans hcb
    have hcs := exec_sameUnit_of_ne hc hkj
    exact (hdc.trans hcs).trans ((exec_sameUnit_of_ne hj hkj).trans (exec_sameUnit_of_ne hi hki)).symm
  have hd_eq : d = b := State.eq_of_sameUnit (by rw [dcfg, ccfg, bcfg, acfg]) (by rw [dport, cport, bport, aport])
    (by rw [ddraws, cdraws, bdraws, adraws]) hdb
  exact ⟨c, hc, hd_eq ▸ hd⟩

/-- Settles O16: the frame rule, locality and commutation of the commands. -/
theorem unitsShareNoState : Obligations.UnitsShareNoState := by
  refine ⟨fun i s t h => ?_, fun i s s' t hcfg hcrc henc hdec h => ?_, fun i j s a b => exec_comm⟩
  · obtain ⟨hcfg, -, -, hunits⟩ := exec_frame h
    exact ⟨hcfg, hunits⟩
  · obtain ⟨t', ht', hunit⟩ := exec_local hcfg (State.sameUnit_iff.2 ⟨hcrc, henc, hdec⟩) h
    exact ⟨t', ht', State.sameUnit_iff.1 hunit⟩

end Sys2Proof.Machine
end

section
/-! SUPPORT. A row's mask and match read as fields (`30_encoding.md` R56): a word meets a row exactly when its `op` byte
is the row's code and its operand bits meet the row's constraint (`Op.match_iff`). The decoder selects rows by the same
two tests, so what it answers (`decode_eq_ok_iff`) and the list of R57 both follow from this one fact. -/

namespace Sys2Proof

open Sys2Proof.Machine

/-- Concatenations of the same widths are equal part by part. -/
theorem bitVec_append_inj {m n : Nat} {x x' : BitVec m} {y y' : BitVec n} :
    x ++ y = x' ++ y' ↔ x = x' ∧ y = y' := by
  refine ⟨fun h => ⟨?_, ?_⟩, fun ⟨hx, hy⟩ => hx ▸ hy ▸ rfl⟩
  · simpa only [BitVec.extractLsb'_append_eq_left] using congrArg (BitVec.extractLsb' n m) h
  · simpa only [BitVec.extractLsb'_append_eq_right] using congrArg (BitVec.extractLsb' 0 n) h

/-- `unit` and `fn` together are the `op` byte `cw[23:16]`. -/
theorem unitField_append_fnField (cw : CommandWord) : unitField cw ++ fnField cw = cw.extractLsb' 16 8 :=
  BitVec.extractLsb'_append_extractLsb'_eq_extractLsb' rfl

/-- A word is its `op` byte above its operand bits. -/
theorem opByte_append_argField (cw : CommandWord) : cw.extractLsb' 16 8 ++ argField cw = cw :=
  BitVec.extractLsb'_append_extractLsb' (w := 8) (len := 16)

/-- The part of a row's mask that lies on `arg`: the operand bits that must be 0. -/
def Machine.OperandForm.mask : OperandForm → BitVec 16
  | .none => 0xFFFF
  | .byte => 0xFF00
  | .capacity => 0x0000

/-- The operand bits under the mask are 0 exactly when the form admits them (`30_encoding.md` R55). -/
theorem Machine.OperandForm.and_mask_eq_zero_iff (f : OperandForm) (arg : BitVec 16) :
    arg &&& f.mask = 0 ↔ f.admits arg = true := by
  cases f with
  | none =>
    rw [OperandForm.mask, show (0xFFFF : BitVec 16) = BitVec.allOnes 16 from rfl, BitVec.and_allOnes]
    exact beq_iff_eq.symm
  | byte =>
    have hsplit : arg.extractLsb' 8 8 ++ arg.extractLsb' 0 8 = arg :=
      BitVec.extractLsb'_append_extractLsb' (w := 8) (len := 8)
    have hand : arg &&& OperandForm.mask .byte = arg.extractLsb' 8 8 ++ (0 : BitVec 8) := by
      calc arg &&& OperandForm.mask .byte
          = (arg.extractLsb' 8 8 ++ arg.extractLsb' 0 8) &&& (BitVec.allOnes 8 ++ (0 : BitVec 8)) := by
            rw [hsplit]; rfl
        _ = arg.extractLsb' 8 8 ++ (0 : BitVec 8) := by
            rw [BitVec.and_append, BitVec.and_allOnes]; exact congrArg _ BitVec.and_zero
    rw [hand]
    exact (bitVec_append_inj (y := 0) (x' := 0) (y' := 0)).trans ((and_iff_left rfl).trans beq_iff_eq.symm)
  | capacity => exact iff_of_true BitVec.and_zero rfl

/-- The mask of a row covers the whole `op` byte, and of the operand bits those its form wants to be 0. -/
theorem Op.maskWord_eq (op : Op) : op.maskWord = BitVec.allOnes 8 ++ op.form.mask := by cases op <;> rfl

/-- `cw & mask == match` in terms of the fields of the word (`30_encoding.md` R54 to R56). -/
theorem Op.match_iff (cw : CommandWord) (op : Op) :
    cw &&& op.maskWord = op.matchWord ↔
      cw.extractLsb' 16 8 = op.code ∧ op.form.admits (argField cw) = true := by
  have hand : cw &&& op.maskWord = cw.extractLsb' 16 8 ++ (argField cw &&& op.form.mask) := by
    calc cw &&& op.maskWord
        = (cw.extractLsb' 16 8 ++ argField cw) &&& (BitVec.allOnes 8 ++ op.form.mask) := by
          rw [opByte_append_argField, Op.maskWord_eq]
      _ = cw.extractLsb' 16 8 ++ (argField cw &&& op.form.mask) := by rw [BitVec.and_append, BitVec.and_allOnes]
  rw [hand, Op.matchWord_eq, ← OperandForm.and_mask_eq_zero_iff]
  exact bitVec_append_inj

/-- No two rows have the same `op` byte. -/
theorem Op.code_injective : Function.Injective Op.code := by
  intro o o' h
  have hsel := Op.ofFields_code o
  rw [h, Op.ofFields_code] at hsel
  exact (Except.ok.inj hsel).symm

/-- The row selection answers a row exactly when the `op` byte is that row's. -/
theorem Op.ofFields_eq_ok_iff (cw : CommandWord) (op : Op) :
    Op.ofFields (unitField cw) (fnField cw) = .ok op ↔ cw.extractLsb' 16 8 = op.code := by
  rw [← unitField_append_fnField]
  refine ⟨Op.code_of_ofFields, fun h => ?_⟩
  have hsel := Op.ofFields_code op
  rwa [← h, BitVec.extractLsb'_append_eq_left, BitVec.extractLsb'_append_eq_right] at hsel

@[simp] theorem Op.op_instr (op : Op) (arg : BitVec 16) : (op.instr arg).op = op := by cases op <;> rfl

/-- What the decoder answers: the command of the row that the word meets, with its operand taken from `arg`. -/
theorem decode_eq_ok_iff (cw : CommandWord) (i : Instr) :
    decode cw = .ok i ↔ cw &&& i.op.maskWord = i.op.matchWord ∧ i.op.instr (argField cw) = i := by
  rw [Op.match_iff, ← Op.ofFields_eq_ok_iff, decode]
  cases hsel : Op.ofFields (unitField cw) (fnField cw) with
  | error e => simp
  | ok op =>
    by_cases hadm : op.form.admits (argField cw) = true
    · simp only [hadm, if_true, Except.ok.injEq]
      constructor
      · rintro rfl
        simp [hadm]
      · rintro ⟨⟨rfl, -⟩, hi⟩
        exact hi
    · simp only [hadm, Except.ok.injEq]
      refine iff_of_false (by simp) ?_
      rintro ⟨⟨rfl, hadm'⟩, -⟩
      exact hadm hadm'

/-- The byte operand is the low byte of the word (`30_encoding.md` R55). -/
@[simp] theorem imm8Operand_argField (cw : CommandWord) : imm8Operand (argField cw) = cw.extractLsb' 0 8 :=
  BitVec.extractLsb'_extractLsb'_of_le (by decide)

/-- The capacity operand is the low sixteen bits of the word (`30_encoding.md` R55). -/
@[simp] theorem capOperand_argField (cw : CommandWord) : capOperand (argField cw) = cw.extractLsb' 0 16 := rfl

/-- Settles O4: each row is `decode_eq_ok_iff` with its operand read off the word; a word of two rows would
have two `op` bytes. -/
theorem opcodeMapByMatchAndMask : Obligations.OpcodeMapByMatchAndMask := by
  intro cw
  have hplain (i : Instr) (hi : i.op.instr (argField cw) = i) :
      decode cw = .ok i ↔ cw &&& i.op.maskWord = i.op.matchWord :=
    (decode_eq_ok_iff cw i).trans (and_iff_left hi)
  have hoperand (i : Instr) {p : Prop} (hi : i.op.instr (argField cw) = i ↔ p) :
      decode cw = .ok i ↔ cw &&& i.op.maskWord = i.op.matchWord ∧ p :=
    (decode_eq_ok_iff cw i).trans (and_congr_right' hi)
  refine ⟨hplain .crcClr rfl,
    fun b => hoperand (.crcUpd b) (by simp [Instr.op, Op.instr]),
    fun c => hoperand (.encStart c) (by simp [Instr.op, Op.instr]),
    fun b => hoperand (.encPut b) (by simp [Instr.op, Op.instr]),
    hplain .encEnd rfl,
    fun c => hoperand (.decStart c) (by simp [Instr.op, Op.instr]),
    fun b => hoperand (.decPut b) (by simp [Instr.op, Op.instr]),
    hplain .decEnd rfl, ?_⟩
  rintro o o' hne ⟨ho, ho'⟩
  obtain ⟨hcode, -⟩ := (Op.match_iff cw o).1 ho
  obtain ⟨hcode', -⟩ := (Op.match_iff cw o').1 ho'
  exact hne (Op.code_injective (hcode.symm.trans hcode'))

/-- The rows with a byte operand, by their `op` bytes. -/
theorem Op.exists_byte_code_iff (b : BitVec 8) :
    (∃ op : Op, b = op.code ∧ op.form = .byte) ↔ b = 0x11 ∨ b = 0x21 ∨ b = 0x31 := by
  constructor
  · rintro ⟨op, rfl, hform⟩
    revert hform
    cases op <;> decide
  · rintro (rfl | rfl | rfl)
    exacts [⟨.crcUpd, rfl, rfl⟩, ⟨.encPut, rfl, rfl⟩, ⟨.decPut, rfl, rfl⟩]

/-- The rows with no operand, by their `op` bytes. -/
theorem Op.exists_none_code_iff (b : BitVec 8) :
    (∃ op : Op, b = op.code ∧ op.form = .none) ↔ b = 0x10 ∨ b = 0x22 ∨ b = 0x32 := by
  constructor
  · rintro ⟨op, rfl, hform⟩
    revert hform
    cases op <;> decide
  · rintro (rfl | rfl | rfl)
    exacts [⟨.crcClr, rfl, rfl⟩, ⟨.encEnd, rfl, rfl⟩, ⟨.decEnd, rfl, rfl⟩]

/-- A statement about every row is decided over the list of the rows. -/
theorem Op.forall_iff_forall_mem_all {p : Op → Prop} : (∀ op, p op) ↔ ∀ op ∈ Op.all, p op :=
  ⟨fun h op _ => h op, fun h op => h op (by cases op <;> decide)⟩

/-- `unit` and `fn` are of no row exactly when the unit is reserved or the function is (`30_encoding.md` R57,
its first two lines). -/
theorem Op.code_ne_iff (unit fn : BitVec 4) :
    (∀ op : Op, unit ++ fn ≠ op.code) ↔
      (unit ≠ 1 ∧ unit ≠ 2 ∧ unit ≠ 3) ∨ (unit = 1 ∧ 2 ≤ fn.toNat) ∨ ((unit = 2 ∨ unit = 3) ∧ 3 ≤ fn.toNat) := by
  rw [Op.forall_iff_forall_mem_all]
  revert unit fn
  decide

/-- A word meets no row exactly when its `op` byte is of none, or its operand bits break the constraint of the
row that the `op` byte selects. -/
theorem Op.match_none_iff (cw : CommandWord) :
    (∀ op : Op, cw &&& op.maskWord ≠ op.matchWord) ↔
      (∀ op : Op, cw.extractLsb' 16 8 ≠ op.code) ∨
      ∃ op : Op, cw.extractLsb' 16 8 = op.code ∧ op.form.admits (argField cw) = false := by
  simp only [ne_eq, Op.match_iff, not_and, Bool.not_eq_true]
  constructor
  · intro h
    by_cases hex : ∃ op : Op, cw.extractLsb' 16 8 = op.code
    · obtain ⟨op, hop⟩ := hex
      exact .inr ⟨op, hop, h op hop⟩
    · exact .inl (not_exists.1 hex)
  · rintro (hno | ⟨op, hop, hadm⟩) o ho
    · exact absurd ho (hno o)
    · rwa [Op.code_injective (ho.symm.trans hop)]

/-- The operand bits break a row's constraint in a byte row with `arg[15:8] != 0` and in a no-operand row with
`arg != 0`, and in no other way (`30_encoding.md` R57, its last two lines). -/
theorem Op.operand_violation_iff (b : BitVec 8) (arg : BitVec 16) :
    (∃ op : Op, b = op.code ∧ op.form.admits arg = false) ↔
      ((b = 0x11 ∨ b = 0x21 ∨ b = 0x31) ∧ arg.extractLsb' 8 8 ≠ 0) ∨
      ((b = 0x10 ∨ b = 0x22 ∨ b = 0x32) ∧ arg ≠ 0) := by
  rw [← Op.exists_byte_code_iff, ← Op.exists_none_code_iff]
  constructor
  · rintro ⟨op, hop, hadm⟩
    cases hform : op.form with
    | none => exact .inr ⟨⟨op, hop, hform⟩, by simpa [hform, OperandForm.admits] using hadm⟩
    | byte => exact .inl ⟨⟨op, hop, hform⟩, by simpa [hform, OperandForm.admits] using hadm⟩
    | capacity => simp [hform, OperandForm.admits] at hadm
  · rintro (⟨⟨op, hop, hform⟩, harg⟩ | ⟨⟨op, hop, hform⟩, harg⟩)
    · exact ⟨op, hop, by simpa [hform, OperandForm.admits] using harg⟩
    · exact ⟨op, hop, by simpa [hform, OperandForm.admits] using harg⟩

/-- A word that meets no row is no command's. -/
theorem decode_eq_error_of_match_none {cw : CommandWord} (h : ∀ op : Op, cw &&& op.maskWord ≠ op.matchWord) :
    ∃ e, decode cw = .error e := by
  cases hdec : decode cw with
  | error e => exact ⟨e, rfl⟩
  | ok i => exact absurd ((decode_eq_ok_iff cw i).1 hdec).1 (h i.op)

/-- A step that takes a word the decoder rejects is refused by name. -/
theorem step_eq_refused {s : State} {cw : CommandWord} {rest : List HostInput} {e : DecodeError}
    (hport : s.port = .command cw :: rest) (hdec : decode cw = .error e) : step s = .refused (.reservedWord cw) := by
  simp only [step, hport, hdec]

/-- Settles O5: the list of R57 is the row selection's (`Op.code_ne_iff`) and the operand constraints'
(`Op.operand_violation_iff`). -/
theorem reservedWordsAreRefused : Obligations.ReservedWordsAreRefused := by
  refine ⟨fun cw h => ?_, fun cw => ?_, fun o => ?_, fun o => ?_⟩
  · obtain ⟨e, hdec⟩ := decode_eq_error_of_match_none h
    exact ⟨⟨e, hdec⟩, fun s rest hport => step_eq_refused hport hdec⟩
  · have hhigh : (argField cw).extractLsb' 8 8 = cw.extractLsb' 8 8 :=
      BitVec.extractLsb'_extractLsb'_of_le (by decide)
    have hsel := Op.code_ne_iff (unitField cw) (fnField cw)
    have harg := Op.operand_violation_iff (cw.extractLsb' 16 8) (argField cw)
    rw [unitField_append_fnField] at hsel
    rw [hhigh] at harg
    rw [Op.match_none_iff, hsel, harg]
    simp only [or_assoc]
    rfl
  · cases o <;> decide
  · cases o <;> decide

end Sys2Proof
end

section
/-! SUPPORT. The escape function on each kind of byte (`30_encoding.md` R46), for every four pairwise different
reserved values (`00_scope.md` R5). -/

namespace Sys2Proof

open Sys2Proof.Machine

/-- `00_scope.md` R5, each inequality on its own. -/
theorem ReservedBytes.pairwise_ne (c : ReservedBytes) :
    c.delim ≠ c.esc ∧ c.delim ≠ c.escDelim ∧ c.delim ≠ c.escEsc ∧ c.esc ≠ c.escDelim ∧ c.esc ≠ c.escEsc ∧
      c.escDelim ≠ c.escEsc := by
  simpa [ReservedBytes.distinctBytes, and_assoc] using c.distinct

@[simp] theorem Machine.escape_delim (c : ReservedBytes) : escape c c.delim = [c.esc, c.escDelim] := if_pos rfl

@[simp] theorem Machine.escape_esc (c : ReservedBytes) : escape c c.esc = [c.esc, c.escEsc] := by
  obtain ⟨hde, -⟩ := c.pairwise_ne
  rw [escape, if_neg hde.symm, if_pos rfl]

theorem Machine.escape_other (c : ReservedBytes) {b : Byte} (hd : b ≠ c.delim) (he : b ≠ c.esc) : escape c b = [b] := by
  rw [escape, if_neg hd, if_neg he]

/-- Settles O26: the two continuation values are other bytes, since the four reserved values differ (R5). -/
theorem escapeMapping : Obligations.EscapeMapping := by
  intro c
  obtain ⟨-, hdD, hdE, heD, heE, -⟩ := c.pairwise_ne
  exact ⟨escape_delim c, escape_esc c, fun _ => escape_other c, escape_other c hdD.symm heD.symm,
    escape_other c hdE.symm heE.symm⟩

end Sys2Proof
end

section
/-! SUPPORT. The commands of the CRC unit (`40_crc.md` R74, R75): each is one `setCrc`, so a run of `CRC.UPD` is one
`setCrc` of the fold of `crcByte` (R71). The corner cases of R75 rest on 0x00 being a fixed point of the shift step. -/

namespace Sys2Proof.Machine

@[simp] theorem crcShift1_zero : crcShift1 0x00 = 0x00 := by decide

/-- `40_crc.md` R70: the exclusive-or clears the register and the shift steps keep it clear. -/
@[simp] theorem crcByte_self (r : Byte) : crcByte r r = 0x00 := by
  rw [crcByte, BitVec.xor_self]
  exact Function.iterate_fixed crcShift1_zero 8

@[simp] theorem crcFrom_nil (r : Byte) : crcFrom r [] = r := rfl
@[simp] theorem crcFrom_cons (r b : Byte) (d : List Byte) : crcFrom r (b :: d) = crcFrom (crcByte r b) d := rfl

@[simp] theorem crcZero_eq_true_iff (v : Byte) : crcZero v = true ↔ v = 0x00 := beq_iff_eq

@[simp] theorem State.setCrc_setCrc (v w : Byte) (s : State) : (s.setCrc w).setCrc v = s.setCrc v := rfl

@[simp] theorem observe_crcVal (s : State) : (observe s).crcVal = s.crc := rfl
@[simp] theorem observe_crcZero (s : State) : (observe s).crcZero = crcZero s.crc := rfl

theorem exec_crcClr (s : State) : exec .crcClr s = .next (s.setCrc 0x00) := rfl

theorem exec_crcUpd (b : Byte) (s : State) : exec (.crcUpd b) s = .next (s.setCrc (crcByte s.crc b)) := rfl

/-- `exec_crcUpd` at the current register value. -/
theorem exec_crcUpd_self (s : State) : exec (.crcUpd s.crc) s = .next (s.setCrc 0x00) := by
  rw [exec_crcUpd, crcByte_self]

/-- A run goes on from the state in which its first command completes. -/
theorem execAll_cons_of_next {i : Instr} {s t : State} (h : exec i s = .next t) (is : List Instr) :
    execAll (i :: is) s = execAll is t := by rw [execAll, h]

/-- `40_crc.md` R71 on the machine: the register accumulates the bytes from the value it holds. -/
theorem execAll_crcUpd (d : List Byte) (s : State) :
    execAll (d.map .crcUpd) s = .next (s.setCrc (crcFrom s.crc d)) := by
  induction d generalizing s with
  | nil => rfl
  | cons b d ih =>
    rw [List.map_cons, execAll_cons_of_next (exec_crcUpd b s), ih, State.setCrc_crc, State.setCrc_setCrc, crcFrom_cons]

theorem execAll_crcClr_crcUpd (d : List Byte) (s : State) :
    execAll (.crcClr :: d.map .crcUpd) s = .next (s.setCrc (crcCalc d)) := by
  rw [execAll_cons_of_next (exec_crcClr s), execAll_crcUpd, State.setCrc_crc, State.setCrc_setCrc, crcCalc]

/-- The word of `CRC.UPD`: its operand bits are the byte (`30_encoding.md` R56). -/
theorem encode_crcUpd (b : Byte) : encode (.crcUpd b) = 0x110000 ||| b.setWidth 24 :=
  congrArg ((0x110000 : CommandWord) ||| ·) (BitVec.setWidth_setWidth (by decide))

/-- Settles O24: the two commands are `exec_crcClr` and `exec_crcUpd`, a cleared run is `execAll_crcClr_crcUpd`, and the
corner cases are `crcByte_self`. -/
theorem crcCommandsUpdateTheRegister : Obligations.CrcCommandsUpdateTheRegister := fun s b =>
  ⟨by decide, encode_crcUpd b, exec_crcClr s, exec_crcUpd b s, exec_crcUpd_self s, crcByte_self 0x00,
    fun d => execAll_crcClr_crcUpd d s, observe_crcVal _, (crcZero_eq_true_iff _).2 rfl, observe_crcVal _,
    crcZero_eq_true_iff _⟩

end Sys2Proof.Machine
end

section
/-! SUPPORT. The commands of the ENC unit (`41_encoder.md` R83 to R86). `ENC.PUT` and `ENC.END` are each one run of
capacity-checked writes, so what they do is the run's two cases: every byte fits and is stored, or one raises. -/

namespace Sys2Proof.Machine

/-! ### A run of writes -/

@[simp] theorem FrameUnit.storeAll_state (vs : List Byte) (u : FrameUnit) : (u.storeAll vs).state = u.state := rfl
@[simp] theorem FrameUnit.storeAll_err (vs : List Byte) (u : FrameUnit) : (u.storeAll vs).err = u.err := rfl

/-- The cells from the write index on hold the stored bytes. -/
theorem FrameUnit.read_storeAll_written (u : FrameUnit) {vs : List Byte} {k : Nat} (hk : k < vs.length) :
    Memory.read (u.storeAll vs).buf (u.len.toNat + k) = vs[k]? := by
  rw [FrameUnit.storeAll, Memory.read_writeAll, if_pos (by omega), Nat.add_sub_cancel_left]

/-- Every other cell keeps its byte. -/
theorem FrameUnit.read_storeAll_other (u : FrameUnit) {vs : List Byte} {a : Nat}
    (ha : a < u.len.toNat ∨ u.len.toNat + vs.length ≤ a) :
    Memory.read (u.storeAll vs).buf a = Memory.read u.buf a := by
  rw [FrameUnit.storeAll, Memory.read_writeAll, if_neg (by omega)]

/-- A run of writes ends in `ERR` exactly when it does not fit. -/
theorem FrameUnit.encEmitAll_state {u : FrameUnit} (vs : List Byte) (hb : u.state = .body)
    (hl : u.len.toNat ≤ u.cap.toNat) :
    (u.encEmitAll vs).state = if u.cap.toNat < u.len.toNat + vs.length then .err else .body := by
  split
  · next h => rw [FrameUnit.encEmitAll_overflow vs hb hl h, FrameUnit.raise_state]
  · next h => rw [FrameUnit.encEmitAll_fits vs hb (not_lt.1 h), FrameUnit.storeAll_state, hb]

@[simp] theorem FrameUnit.inBody_finish_cap (u : FrameUnit) : (u.inBody FrameUnit.finish).cap = u.cap := by
  unfold FrameUnit.inBody
  split <;> rfl

@[simp] theorem FrameUnit.inBody_finish_crc (u : FrameUnit) : (u.inBody FrameUnit.finish).crc = u.crc := by
  unfold FrameUnit.inBody
  split <;> rfl

/-- A run of writes that fits leaves `BODY` as it was, so the frame is finished. -/
theorem FrameUnit.encEmitAll_finish_fits {u : FrameUnit} (vs : List Byte) (hb : u.state = .body)
    (h : u.len.toNat + vs.length ≤ u.cap.toNat) :
    (u.encEmitAll vs).inBody FrameUnit.finish = (u.storeAll vs).finish := by
  rw [FrameUnit.encEmitAll_fits vs hb h, FrameUnit.inBody_body (by simpa using hb)]

/-- A run of writes that does not fit has left `BODY`, so the frame is not finished (`60_exceptions.md` R134). -/
theorem FrameUnit.encEmitAll_finish_overflow {u : FrameUnit} (vs : List Byte) (hb : u.state = .body)
    (hl : u.len.toNat ≤ u.cap.toNat) (h : u.cap.toNat < u.len.toNat + vs.length) :
    (u.encEmitAll vs).inBody FrameUnit.finish =
      (u.storeAll (vs.take (u.cap.toNat - u.len.toNat))).raise .capacityExceeded := by
  rw [FrameUnit.encEmitAll_overflow vs hb hl h, FrameUnit.inBody_not_body (by simp)]

/-! ### The three commands -/

/-- The word of `ENC.PUT`: its operand bits are the byte (`30_encoding.md` R56). -/
theorem encode_encPut (b : Byte) : encode (.encPut b) = 0x210000 ||| b.setWidth 24 :=
  congrArg ((0x210000 : CommandWord) ||| ·) (BitVec.setWidth_setWidth (by decide))

/-- `ENC.START` answers a next state exactly when its capacity fits the real buffer (`20_memory.md` R40). -/
theorem exec_encStart_eq_next_iff {cap : Cap} {s t : State} :
    exec (.encStart cap) s = .next t ↔
      cap.toNat ≤ s.cfg.outSize ∧ t = s.setEnc ((s.enc.begin cap).encEmit s.cfg.bytes.delim) :=
  State.ifFits_next

/-- The first write of a frame with capacity 0 raises. -/
theorem FrameUnit.begin_encEmit_zero (v : Byte) (u : FrameUnit) :
    (u.begin 0).encEmit v = (u.begin 0).raise .capacityExceeded :=
  FrameUnit.encEmit_full v rfl rfl

/-- The first write of a frame with any other capacity fits. -/
theorem FrameUnit.begin_encEmit_of_ne_zero {cap : Cap} (v : Byte) (u : FrameUnit) (hcap : cap ≠ 0) :
    (u.begin cap).encEmit v = (u.begin cap).store v :=
  FrameUnit.encEmit_room v rfl hcap.symm

theorem exec_encPut_body (b : Byte) {s : State} (hb : s.enc.state = .body) :
    exec (.encPut b) s = .next (s.setEnc ((s.enc.accumulate b).encEmitAll (escape s.cfg.bytes b))) := by
  rw [exec, execEncPut, FrameUnit.inBody_body hb, FrameUnit.encEmitEscaped]

theorem exec_encPut_not_body (b : Byte) {s : State} (hb : s.enc.state ≠ .body) : exec (.encPut b) s = .next s := by
  rw [exec, execEncPut, FrameUnit.inBody_not_body hb]
  rfl

/-- The checksum and the delimiter of `ENC.END` are one run of writes. -/
theorem exec_encEnd_body {s : State} (hb : s.enc.state = .body) :
    exec .encEnd s = .next (s.setEnc
      ((s.enc.encEmitAll (escape s.cfg.bytes s.enc.crc ++ [s.cfg.bytes.delim])).inBody FrameUnit.finish)) := by
  rw [exec, execEncEnd, FrameUnit.inBody_body hb, FrameUnit.encEmitAll_append]
  rfl

theorem exec_encEnd_not_body {s : State} (hb : s.enc.state ≠ .body) : exec .encEnd s = .next s := by
  rw [exec, execEncEnd, FrameUnit.inBody_not_body hb]
  rfl

/-- Settles O31: the run is the escaped byte, written after the running CRC has taken the byte; it fits
(`encEmitAll_fits`) or raises (`encEmitAll_overflow`). -/
theorem encPutWritesTheEscapedByte : Obligations.EncPutWritesTheEscapedByte := by
  intro b s
  refine ⟨encode_encPut b, exec_encPut_not_body b, fun hb hl => ?_⟩
  obtain ⟨hcap, hcrc, -⟩ := FrameUnit.encEmitAll_frame (u := s.enc.accumulate b) (escape s.cfg.bytes b) hl
  refine ⟨_, exec_encPut_body b hb, hcrc, hcap, fun hfits => ?_, fun hover => ?_⟩
  · rw [FrameUnit.encEmitAll_fits (u := s.enc.accumulate b) _ hb hfits]
    exact ⟨hb, rfl, FrameUnit.storeAll_len_toNat (u := s.enc.accumulate b) _ hfits,
      fun _ => (s.enc.accumulate b).read_storeAll_written, fun _ => (s.enc.accumulate b).read_storeAll_other⟩
  · rw [FrameUnit.encEmitAll_overflow (u := s.enc.accumulate b) _ hb hl hover]
    exact ⟨rfl, rfl⟩

/-- Settles O32: the run is the escaped checksum and the delimiter; when it fits the frame is finished, when it
raises `BODY` is left and `DONE` is not reached. -/
theorem encEndWritesChecksumAndDelimiter : Obligations.EncEndWritesChecksumAndDelimiter := by
  intro s
  refine ⟨by decide, exec_encEnd_not_body, fun hb herr hl => ?_⟩
  obtain ⟨hcap, hcrc, -⟩ := FrameUnit.encEmitAll_frame (escape s.cfg.bytes s.enc.crc ++ [s.cfg.bytes.delim]) hl
  refine ⟨_, exec_encEnd_body hb, (FrameUnit.inBody_finish_crc _).trans hcrc,
    (FrameUnit.inBody_finish_cap _).trans hcap, fun hfits => ?_, fun hover => ?_⟩
  · rw [FrameUnit.encEmitAll_finish_fits _ hb hfits]
    exact ⟨rfl, herr, FrameUnit.storeAll_len_toNat _ hfits, fun _ => s.enc.read_storeAll_written,
      fun _ => s.enc.read_storeAll_other⟩
  · rw [FrameUnit.encEmitAll_finish_overflow _ hb hl hover]
    exact ⟨rfl, rfl⟩

/-- Settles O33: `START` by its capacity, `PUT` and `END` in `BODY` by whether their run of writes fits, and outside
`BODY` by doing nothing. -/
theorem encTransitions : Obligations.EncTransitions := by
  intro s
  refine ⟨fun cap t ht => ?_, fun hb hl => ⟨fun b => ?_, ?_⟩, fun hs => ?_⟩
  · obtain ⟨-, rfl⟩ := exec_encStart_eq_next_iff.1 ht
    split
    · next hcap => rw [hcap, State.setEnc_enc, FrameUnit.begin_encEmit_zero, FrameUnit.raise_state]
    · next hcap => rw [State.setEnc_enc, FrameUnit.begin_encEmit_of_ne_zero _ _ hcap, FrameUnit.store_state,
        FrameUnit.begin_state]
  · exact ⟨_, exec_encPut_body b hb, FrameUnit.encEmitAll_state (u := s.enc.accumulate b) _ hb hl⟩
  · refine ⟨_, exec_encEnd_body hb, ?_⟩
    split
    · next hover => rw [State.setEnc_enc, FrameUnit.encEmitAll_finish_overflow _ hb hl hover, FrameUnit.raise_state]
    · next hfits => rw [State.setEnc_enc, FrameUnit.encEmitAll_finish_fits _ hb (not_lt.1 hfits),
        FrameUnit.finish_state]
  · have hb : s.enc.state ≠ .body := by rcases hs with h | h | h <;> simp [h]
    exact ⟨fun b => exec_encPut_not_body b hb, exec_encEnd_not_body hb⟩

/-- Settles O30: the first write is the delimiter into an empty frame, which fits unless the capacity is 0. -/
theorem encStartBeginsAFrame : Obligations.EncStartBeginsAFrame := by
  intro cap s hsize
  have hexec := exec_encStart_eq_next_iff.2 ⟨hsize, rfl⟩
  refine ⟨rfl, fun hcap => ?_, ?_⟩
  · rw [hexec, FrameUnit.begin_encEmit_of_ne_zero _ _ hcap]
    rfl
  · rintro rfl
    rw [hexec, FrameUnit.begin_encEmit_zero]
    exact ⟨_, rfl, rfl, rfl, rfl, rfl, rfl⟩

end Sys2Proof.Machine
end

section
/-! SUPPORT. The commands of the DEC unit (`42_decoder.md` R97 to R100). `DEC.PUT` in `BODY` reads one symbol of the
wire format (`30_encoding.md` R48): by the pending escape and the byte it raises, waits for a continuation, or makes
one capacity-checked write. -/

namespace Sys2Proof.Machine

/-! ### Reading one symbol -/

@[simp] theorem continuation_escDelim (c : ReservedBytes) : continuation c c.escDelim = some c.delim := if_pos rfl

@[simp] theorem continuation_escEsc (c : ReservedBytes) : continuation c c.escEsc = some c.esc := by
  obtain ⟨-, -, -, -, -, hDE⟩ := c.pairwise_ne
  rw [continuation, if_neg hDE.symm, if_pos rfl]

theorem continuation_other (c : ReservedBytes) {b : Byte} (hD : b ≠ c.escDelim) (hE : b ≠ c.escEsc) :
    continuation c b = none := by
  rw [continuation, if_neg hD, if_neg hE]

/-- A continuation byte ends the escape, whatever byte it is (`10_state.md` R19). -/
@[simp] theorem pendingAfter_true (c : ReservedBytes) (b : Byte) : pendingAfter c true b = false := rfl

@[simp] theorem pendingAfter_false_esc (c : ReservedBytes) : pendingAfter c false c.esc = true := beq_self_eq_true c.esc

theorem pendingAfter_false_other (c : ReservedBytes) {b : Byte} (h : b ≠ c.esc) : pendingAfter c false b = false :=
  beq_eq_false_iff_ne.2 h

/-- A recognised continuation is written as the byte it stands for. -/
theorem FrameUnit.decTake_recognised {c : ReservedBytes} {b v : Byte} (u : FrameUnit) (h : continuation c b = some v) :
    u.decTake c true b = u.decEmit v := by
  rw [FrameUnit.decTake, if_pos rfl, h]

/-- Any other continuation raises before the capacity is looked at (`60_exceptions.md` R137). -/
theorem FrameUnit.decTake_unrecognised {c : ReservedBytes} {b : Byte} (u : FrameUnit) (h : continuation c b = none) :
    u.decTake c true b = u.raise .malformedEscape := by
  rw [FrameUnit.decTake, if_pos rfl, h]

@[simp] theorem FrameUnit.decTake_esc (c : ReservedBytes) (u : FrameUnit) : u.decTake c false c.esc = u := by
  rw [FrameUnit.decTake, if_neg Bool.false_ne_true, if_pos rfl]

theorem FrameUnit.decTake_other {c : ReservedBytes} {b : Byte} (u : FrameUnit) (h : b ≠ c.esc) :
    u.decTake c false b = u.decEmit b := by
  rw [FrameUnit.decTake, if_neg Bool.false_ne_true, if_neg h]

/-- `dec_emit` in `BODY` by its capacity check. -/
theorem FrameUnit.decEmit_body {u : FrameUnit} (v : Byte) (hb : u.state = .body) :
    u.decEmit v = if u.len = u.cap then u.raise .capacityExceeded else (u.store v).accumulate v :=
  FrameUnit.inBody_body hb

/-- After `dec_emit` the unit is still in `BODY`, unless the buffer was full. -/
theorem FrameUnit.decEmit_state {u : FrameUnit} (v : Byte) (hb : u.state = .body) :
    (u.decEmit v).state = .body ∨ (u.decEmit v).state = .err ∧ (u.decEmit v).err = .capacityExceeded := by
  rcases u.decEmit_cases v with h | ⟨-, -, h⟩ | ⟨-, -, h⟩ <;> rw [h]
  · exact .inl hb
  · exact .inr ⟨rfl, rfl⟩
  · exact .inl hb

/-- After a byte the unit is still in `BODY`, unless the byte raised. -/
theorem FrameUnit.decTake_state {u : FrameUnit} (c : ReservedBytes) (pending : Bool) (b : Byte) (hb : u.state = .body) :
    (u.decTake c pending b).state = .body ∨ (u.decTake c pending b).state = .err ∧
      ((u.decTake c pending b).err = .malformedEscape ∨ (u.decTake c pending b).err = .capacityExceeded) := by
  rcases u.decTake_cases c pending b with h | h | ⟨v, h⟩ <;> rw [h]
  · exact .inl hb
  · exact .inr ⟨rfl, .inl rfl⟩
  · exact (u.decEmit_state v hb).imp_right (And.imp_right .inr)

/-! ### The end of the input -/

@[simp] theorem FrameUnit.decFinish_pending (u : FrameUnit) : u.decFinish true = u.raise .malformedEscape := rfl

theorem FrameUnit.decFinish_empty {u : FrameUnit} (pending : Bool) (hl : u.len = 0) :
    u.decFinish pending = u.raise .malformedEscape := by
  rcases u.decFinish_cases pending with h | ⟨-, hne, -⟩ | ⟨-, hne, -⟩
  · exact h
  · exact absurd hl hne
  · exact absurd hl hne

theorem FrameUnit.decFinish_mismatch {u : FrameUnit} (hl : u.len ≠ 0) (hc : u.crc ≠ 0x00) :
    u.decFinish false = u.raise .checksumMismatch := by
  rw [FrameUnit.decFinish, if_neg Bool.false_ne_true, if_neg hl, if_pos hc]

theorem FrameUnit.decFinish_success {u : FrameUnit} (hl : u.len ≠ 0) (hc : u.crc = 0x00) :
    u.decFinish false = u.dropTrailer.finish := by
  rw [FrameUnit.decFinish, if_neg Bool.false_ne_true, if_neg hl, if_neg (not_not.2 hc)]

theorem FrameUnit.dropTrailer_len_toNat {u : FrameUnit} (hl : u.len ≠ 0) : u.dropTrailer.len.toNat + 1 = u.len.toNat := by
  rw [FrameUnit.dropTrailer_len]
  bv_omega

/-- The three outcomes of `DEC.END` in `BODY`. -/
theorem FrameUnit.decFinish_state (pending : Bool) (u : FrameUnit) :
    (u.decFinish pending).state = .done ∨ (u.decFinish pending).state = .err ∧
      ((u.decFinish pending).err = .malformedEscape ∨ (u.decFinish pending).err = .checksumMismatch) := by
  rcases u.decFinish_cases pending with h | ⟨-, -, -, h⟩ | ⟨-, -, -, h⟩ <;> rw [h]
  · exact .inr ⟨rfl, .inl rfl⟩
  · exact .inr ⟨rfl, .inr rfl⟩
  · exact .inl rfl

/-! ### The three commands -/

/-- The word of `DEC.PUT`: its operand bits are the byte (`30_encoding.md` R56). -/
theorem encode_decPut (b : Byte) : encode (.decPut b) = 0x310000 ||| b.setWidth 24 :=
  congrArg ((0x310000 : CommandWord) ||| ·) (BitVec.setWidth_setWidth (by decide))

/-- `DEC.START` answers a next state exactly when its capacity fits the real buffer (`20_memory.md` R40). -/
theorem exec_decStart_eq_next_iff {cap : Cap} {s t : State} :
    exec (.decStart cap) s = .next t ↔
      cap.toNat ≤ s.cfg.msgSize ∧ t = (s.setDec (s.dec.begin cap)).setDecEsc false :=
  State.ifFits_next

theorem exec_decPut_body (b : Byte) {s : State} {pending : Bool} (hb : s.dec.state = .body)
    (he : s.decEsc = pending) :
    exec (.decPut b) s = .next ((s.setDec (s.dec.decTake s.cfg.bytes pending b)).setDecEsc
      (pendingAfter s.cfg.bytes pending b)) :=
  he ▸ if_pos hb

theorem exec_decPut_not_body (b : Byte) {s : State} (hb : s.dec.state ≠ .body) : exec (.decPut b) s = .next s :=
  if_neg hb

theorem exec_decEnd_body {s : State} {pending : Bool} (hb : s.dec.state = .body) (he : s.decEsc = pending) :
    exec .decEnd s = .next (s.setDec (s.dec.decFinish pending)) := by
  rw [exec, execDecEnd, FrameUnit.inBody_body hb, he]

theorem exec_decEnd_not_body {s : State} (hb : s.dec.state ≠ .body) : exec .decEnd s = .next s := by
  rw [exec, execDecEnd, FrameUnit.inBody_not_body hb]
  rfl

/-- A recognised continuation: one capacity-checked write of the byte it stands for, and the escape is over. -/
theorem exec_decPut_recognised {b v : Byte} {s : State} (hb : s.dec.state = .body) (he : s.decEsc = true)
    (hv : continuation s.cfg.bytes b = some v) :
    exec (.decPut b) s = .next ((s.setDec (s.dec.decEmit v)).setDecEsc false) := by
  rw [exec_decPut_body b hb he, FrameUnit.decTake_recognised _ hv, pendingAfter_true]

/-- Settles O39: `decTake` by the pending escape and the byte; the writes are `decEmit_body`. -/
theorem decPutTakesOneByte : Obligations.DecPutTakesOneByte := by
  intro b s put
  have hput (hb : s.dec.state = .body) (v : Byte) : s.dec.decEmit v = put v := FrameUnit.decEmit_body v hb
  refine ⟨encode_decPut b, exec_decPut_not_body b, fun hb he hD => ?_, fun hb he hE => ?_, fun hb he hD hE => ?_,
    fun hb he hesc => ?_, fun hb he hesc => ?_⟩
  · rw [exec_decPut_recognised hb he (hD ▸ continuation_escDelim _), hput hb]
    rfl
  · rw [exec_decPut_recognised hb he (hE ▸ continuation_escEsc _), hput hb]
    rfl
  · rw [exec_decPut_body b hb he, FrameUnit.decTake_unrecognised _ (continuation_other _ hD hE), pendingAfter_true]
    rfl
  · rw [exec_decPut_body b hb he, hesc, FrameUnit.decTake_esc, pendingAfter_false_esc]
    rfl
  · rw [exec_decPut_body b hb he, FrameUnit.decTake_other _ hesc, pendingAfter_false_other _ hesc, hput hb, ← he]
    rfl

/-- Settles O40: `decFinish` by its three tests in order; on success the length is not 0, so dropping the trailer does
not wrap (`dropTrailer_len_toNat`). -/
theorem decEndChecksAndFinishes : Obligations.DecEndChecksAndFinishes := by
  intro s
  refine ⟨by decide, exec_decEnd_not_body, fun hb he => ?_, fun hb _ hl => ?_, fun hb he hl hc => ?_,
    fun hb he hl hc herr => ⟨s.dec.dropTrailer.finish, ?_, rfl, herr, FrameUnit.dropTrailer_len_toNat hl, rfl, rfl, rfl⟩⟩
  · rw [exec_decEnd_body hb he, FrameUnit.decFinish_pending]
    rfl
  · rw [exec_decEnd_body hb rfl, FrameUnit.decFinish_empty _ hl]
    rfl
  · rw [exec_decEnd_body hb he, FrameUnit.decFinish_mismatch hl hc]
    rfl
  · rw [exec_decEnd_body hb he, FrameUnit.decFinish_success hl hc]
    rfl

/-- Settles O41: `PUT` and `END` in `BODY` by `decTake_state` and `decFinish_state`, and outside `BODY` by doing
nothing. -/
theorem decTransitions : Obligations.DecTransitions := by
  intro s
  refine ⟨fun cap t ht => ?_, fun hb => ⟨fun b => ?_, ?_⟩, fun hs => ?_⟩
  · obtain ⟨-, rfl⟩ := exec_decStart_eq_next_iff.1 ht
    rfl
  · exact ⟨_, exec_decPut_body b hb rfl, FrameUnit.decTake_state _ _ b hb⟩
  · exact ⟨_, exec_decEnd_body hb rfl, FrameUnit.decFinish_state _ _⟩
  · have hb : s.dec.state ≠ .body := by rcases hs with h | h | h <;> simp [h]
    exact ⟨fun b => exec_decPut_not_body b hb, exec_decEnd_not_body hb⟩

/-- Settles O38: a `START` whose capacity fits begins the frame; `begin` keeps the buffer. -/
theorem decStartBeginsAFrame : Obligations.DecStartBeginsAFrame :=
  fun _ _ hsize => ⟨rfl, exec_decStart_eq_next_iff.2 ⟨hsize, rfl⟩⟩

end Sys2Proof.Machine
end

section
/-! SUPPORT. The decoder and the encoder are inverse (`30_encoding.md` R54 to R57). An encoded word is the `op` byte
of its row above the operand bits (`encode_eq_append`); the row's constraint (R55) says exactly that the operand bits
are those of a command (`Op.arg_instr`). -/

namespace Sys2Proof

open Sys2Proof.Machine

theorem encode_eq_append (i : Instr) : encode i = i.op.code ++ i.arg := by
  refine BitVec.eq_of_getLsbD_eq fun k _ => ?_
  rw [encode_getLsbD]
  exact BitVec.getLsbD_append.symm

/-- Operand bits whose high byte is 0 are their low byte. -/
theorem Machine.imm8Operand_setWidth {arg : BitVec 16} (h : OperandForm.byte.admits arg = true) :
    (imm8Operand arg).setWidth 16 = arg := by
  have hhigh : arg.extractLsb' 8 8 = 0 := beq_iff_eq.1 h
  have hsplit : arg.extractLsb' 8 8 ++ arg.extractLsb' 0 8 = arg :=
    BitVec.extractLsb'_append_extractLsb' (w := 8) (len := 8)
  rw [hhigh] at hsplit
  rw [BitVec.setWidth_eq_append (by decide)]
  exact hsplit

/-- The operand that a row takes from admitted operand bits is all of them. -/
theorem Op.arg_instr {op : Op} {arg : BitVec 16} (h : op.form.admits arg = true) : (op.instr arg).arg = arg := by
  cases op with
  | crcClr | encEnd | decEnd => exact (beq_iff_eq.1 h).symm
  | crcUpd | encPut | decPut => exact imm8Operand_setWidth h
  | encStart | decStart => rfl

/-- Every command meets the statement about its row. -/
theorem Laws.TableRow.statement (i : Instr) : Laws.TableRow.Statement i := by
  cases i with
  | crcClr => exact crcClr
  | crcUpd b => exact crcUpd b
  | encStart c => exact encStart c
  | encPut b => exact encPut b
  | encEnd => exact encEnd
  | decStart c => exact decStart c
  | decPut b => exact decPut b
  | decEnd => exact decEnd

/-- Settles O2: an encoded word meets its own row, and its operand bits rebuild the command (`TableRow.statement`). -/
theorem decodeOfEncodeIsTheCommand : Obligations.DecodeOfEncodeIsTheCommand := by
  intro i
  obtain ⟨-, hinstr, hmatch⟩ := Laws.TableRow.statement i
  exact (decode_eq_ok_iff _ i).2 ⟨hmatch, by rw [argField_encode, hinstr]⟩

/-- Settles O3: the `op` byte of the word is the row's and its operand bits are the command's. -/
theorem encodeOfDecodeIsTheWord : Obligations.EncodeOfDecodeIsTheWord := by
  intro cw i h
  obtain ⟨hmatch, hinstr⟩ := (decode_eq_ok_iff cw i).1 h
  obtain ⟨hcode, hadm⟩ := (Op.match_iff cw i.op).1 hmatch
  have harg : i.arg = argField cw := by rw [← hinstr, Op.arg_instr hadm]
  rw [encode_eq_append, harg, ← hcode, opByte_append_argField]

/-- The decoder's answers are the encoder's words. -/
theorem decode_eq_ok_iff_eq_encode (cw : CommandWord) (i : Instr) : decode cw = .ok i ↔ cw = encode i :=
  ⟨fun h => (encodeOfDecodeIsTheWord cw i h).symm, fun h => h ▸ decodeOfEncodeIsTheCommand i⟩

/-- Settles O1: the eight words are `op` byte and operand written out; the four reserved ones are evaluated. -/
theorem vectorWordsDecode : Obligations.VectorWordsDecode := by
  unfold Obligations.VectorWordsDecode
  simp only [decode_eq_ok_iff_eq_encode]
  decide

/-! ### The word at every CAPW (`30_encoding.md` R61) -/

/-- The row selection on the two halves of a number below `2 ^ 8`. -/
theorem Op.ofFields_ofNat_eq_ok_iff {b : Nat} (hb : b < 2 ^ 8) (op : Op) :
    Op.ofFields (BitVec.ofNat 4 (b / 2 ^ 4)) (BitVec.ofNat 4 b) = .ok op ↔ b = op.code.toNat := by
  have hunit (x : BitVec 8) : BitVec.ofNat 4 (x.toNat / 2 ^ 4) = x.extractLsb' 4 4 := by
    apply BitVec.eq_of_toNat_eq
    simp [Nat.shiftRight_eq_div_pow]
  have hfn (x : BitVec 8) : BitVec.ofNat 4 x.toNat = x.extractLsb' 0 4 := by
    apply BitVec.eq_of_toNat_eq
    simp
  have hx : (BitVec.ofNat 8 b).toNat = b := Nat.mod_eq_of_lt hb
  have hun := hunit (BitVec.ofNat 8 b)
  have hf := hfn (BitVec.ofNat 8 b)
  rw [hx] at hun hf
  rw [hun, hf]
  constructor
  · intro h
    have hcode : BitVec.ofNat 8 b = op.code :=
      (BitVec.extractLsb'_append_extractLsb' (w := 4) (len := 4)).symm.trans (Op.code_of_ofFields h)
    rw [← hcode, hx]
  · rintro rfl
    rw [BitVec.ofNat_toNat, BitVec.setWidth_eq]
    exact Op.ofFields_code op

/-- An operand that fits its form fits the operand field. -/
theorem lt_of_operandFits {capw arg : Nat} {f : OperandForm} (h : operandFits capw f arg = true) :
    arg < 2 ^ argBits capw := by
  have hpos : 0 < 2 ^ argBits capw := by positivity
  have hbyte : 2 ^ 8 ≤ 2 ^ argBits capw := Nat.pow_le_pow_right (by decide) (le_max_right capw 8)
  have hcap : 2 ^ capw ≤ 2 ^ argBits capw := Nat.pow_le_pow_right (by decide) (le_max_left capw 8)
  cases f with
  | none => exact (beq_iff_eq.1 h).trans_lt hpos
  | byte => exact (of_decide_eq_true h).trans_le hbyte
  | capacity => exact (of_decide_eq_true h).trans_le hcap

theorem encodeAt_div {capw arg : Nat} (o : Op) (h : arg < 2 ^ argBits capw) :
    encodeAt capw o arg / 2 ^ argBits capw = o.code.toNat := by
  rw [encodeAt, Nat.mul_comm, Nat.mul_add_div (by positivity), Nat.div_eq_of_lt h, Nat.add_zero]

theorem encodeAt_mod {capw arg : Nat} (o : Op) (h : arg < 2 ^ argBits capw) :
    encodeAt capw o arg % 2 ^ argBits capw = arg := by
  rw [encodeAt, Nat.mul_comm, Nat.mul_add_mod, Nat.mod_eq_of_lt h]

theorem encodeAt_lt {capw arg : Nat} (o : Op) (h : arg < 2 ^ argBits capw) :
    encodeAt capw o arg < 2 ^ (8 + argBits capw) := by
  have hcode := o.code.isLt
  calc encodeAt capw o arg < o.code.toNat * 2 ^ argBits capw + 2 ^ argBits capw := Nat.add_lt_add_left h _
    _ = (o.code.toNat + 1) * 2 ^ argBits capw := (Nat.succ_mul _ _).symm
    _ ≤ 2 ^ 8 * 2 ^ argBits capw := Nat.mul_le_mul_right _ hcode
    _ = 2 ^ (8 + argBits capw) := (pow_add 2 8 _).symm

/-- What the decoder at a CAPW answers: the row whose `op` byte is on top, with an operand that fits. -/
theorem decodeAt_eq_ok_iff {capw w : Nat} (hw : w < 2 ^ (8 + argBits capw)) (o : Op) (arg : Nat) :
    decodeAt capw w = .ok (o, arg) ↔
      w / 2 ^ argBits capw = o.code.toNat ∧ w % 2 ^ argBits capw = arg ∧ operandFits capw o.form arg = true := by
  have htop : w / 2 ^ argBits capw < 2 ^ 8 := Nat.div_lt_of_lt_mul (by rwa [← pow_add, Nat.add_comm])
  rw [decodeAt, pow_add, ← Nat.div_div_eq_div_mul, ← Op.ofFields_ofNat_eq_ok_iff htop]
  cases Op.ofFields (BitVec.ofNat 4 (w / 2 ^ argBits capw / 2 ^ 4)) (BitVec.ofNat 4 (w / 2 ^ argBits capw)) with
  | error e => simp
  | ok op =>
    by_cases hfits : operandFits capw op.form (w % 2 ^ argBits capw) = true
    · simp only [hfits, if_true, Except.ok.injEq, Prod.mk.injEq]
      constructor
      · rintro ⟨rfl, rfl⟩
        exact ⟨rfl, rfl, hfits⟩
      · rintro ⟨rfl, rfl, -⟩
        exact ⟨rfl, rfl⟩
    · simp only [hfits, Except.ok.injEq]
      refine iff_of_false (by simp) ?_
      rintro ⟨rfl, rfl, hfits'⟩
      exact hfits hfits'

/-- The same for an encoded word, whose operand is then the one that was encoded. -/
theorem decodeAt_encodeAt_eq_ok_iff {capw arg : Nat} (h : arg < 2 ^ argBits capw) (o o' : Op) (arg' : Nat) :
    decodeAt capw (encodeAt capw o arg) = .ok (o', arg') ↔
      o' = o ∧ arg' = arg ∧ operandFits capw o.form arg = true := by
  rw [decodeAt_eq_ok_iff (encodeAt_lt o h), encodeAt_div o h, encodeAt_mod o h]
  constructor
  · rintro ⟨hcode, rfl, hfits⟩
    obtain rfl := Op.code_injective (BitVec.eq_of_toNat_eq hcode)
    exact ⟨rfl, rfl, hfits⟩
  · rintro ⟨rfl, rfl, hfits⟩
    exact ⟨rfl, rfl, hfits⟩

/-- Every operand of a command fits at CAPW 16. -/
theorem operandFits_arg (i : Instr) : operandFits 16 i.op.form i.arg.toNat = true := by
  cases i with
  | crcClr | encEnd | decEnd => rfl
  | crcUpd b | encPut b | decPut b =>
    refine decide_eq_true ?_
    rw [Instr.arg, BitVec.toNat_setWidth_of_le (by decide)]
    exact b.isLt
  | encStart c | decStart c => exact decide_eq_true c.isLt

/-- At CAPW 16 the word is the machine's. -/
theorem encodeAt_toNat (i : Instr) : encodeAt 16 i.op i.arg.toNat = (encode i).toNat := by
  rw [encode_eq_append, BitVec.toNat_append, ← Nat.shiftLeft_add_eq_or_of_lt i.arg.isLt, Nat.shiftLeft_eq]
  rfl

/-- Settles O6: all four parts are `decodeAt_eq_ok_iff`, for a word that is encoded, one that decodes, one whose operand
does not fit, and the machine's. -/
theorem commandWordAtEveryWidth : Obligations.CommandWordAtEveryWidth := by
  refine ⟨fun capw o operand hfits => ?_, fun capw w o operand hw h => ?_, fun capw o arg harg hfits => ?_,
    fun cw i => ?_⟩
  · have hlt := lt_of_operandFits hfits
    exact ⟨encodeAt_lt o hlt, (decodeAt_encodeAt_eq_ok_iff hlt o o operand).2 ⟨rfl, rfl, hfits⟩⟩
  · obtain ⟨hcode, rfl, hfits⟩ := (decodeAt_eq_ok_iff hw o operand).1 h
    exact ⟨hfits, by rw [encodeAt, ← hcode, Nat.div_add_mod']⟩
  · cases hdec : decodeAt capw (encodeAt capw o arg) with
    | error e => exact ⟨e, rfl⟩
    | ok r =>
      obtain ⟨-, -, hfits'⟩ := (decodeAt_encodeAt_eq_ok_iff harg o r.1 r.2).1 hdec
      simp [hfits] at hfits'
  · have hfits := operandFits_arg i
    have hlt := lt_of_operandFits hfits
    rw [decode_eq_ok_iff_eq_encode, decodeAt_eq_ok_iff cw.isLt, ← BitVec.toNat_inj, ← encodeAt_toNat]
    constructor
    · intro h
      rw [h]
      exact ⟨encodeAt_div _ hlt, encodeAt_mod _ hlt, hfits⟩
    · rintro ⟨hcode, harg, -⟩
      rw [encodeAt, ← hcode, ← harg]
      exact (Nat.div_add_mod' _ _).symm

end Sys2Proof
end

section
/-! SUPPORT. What a step can do, said once. A step takes no input, a reset or a command (`step_cases`); a command does
one of four things to ENC (`EncEffect`) and one of four to DEC (`DecEffect`), and answers a next state exactly when it
is well-formed (`exec_next_iff_wellFormed`). The invariants of the block are facts about these effects. -/

namespace Sys2Proof.Machine

/-! ### The effect of a command on a unit -/

/-- What a command does to the ENC unit: nothing, if it is another unit's or comes outside `BODY`. -/
inductive EncEffect (c : Config) (u : FrameUnit) : Instr → FrameUnit → Prop
  | nothing (i : Instr) (h : i.component = .enc → startsEnc i = false ∧ u.state ≠ .body) : EncEffect c u i u
  | start (cap : Cap) (hcap : cap.toNat ≤ c.outSize) :
      EncEffect c u (.encStart cap) ((u.begin cap).encEmit c.bytes.delim)
  | put (b : Byte) (hb : u.state = .body) :
      EncEffect c u (.encPut b) ((u.accumulate b).encEmitAll (escape c.bytes b))
  | finish (hb : u.state = .body) :
      EncEffect c u .encEnd ((u.encEmitAll (escape c.bytes u.crc ++ [c.bytes.delim])).inBody FrameUnit.finish)

/-- What a command does to the DEC unit and `dec_esc`. -/
inductive DecEffect (c : Config) (u : FrameUnit) (pending : Bool) : Instr → FrameUnit → Bool → Prop
  | nothing (i : Instr) (h : i.component = .dec → startsDec i = false ∧ u.state ≠ .body) :
      DecEffect c u pending i u pending
  | start (cap : Cap) (hcap : cap.toNat ≤ c.msgSize) : DecEffect c u pending (.decStart cap) (u.begin cap) false
  | put (b : Byte) (hb : u.state = .body) :
      DecEffect c u pending (.decPut b) (u.decTake c.bytes pending b) (pendingAfter c.bytes pending b)
  | finish (hb : u.state = .body) : DecEffect c u pending .decEnd (u.decFinish pending) pending

theorem exec_encEffect {i : Instr} {s t : State} (h : exec i s = .next t) : EncEffect s.cfg s.enc i t.enc := by
  have hother (hi : i.component ≠ .enc) : EncEffect s.cfg s.enc i t.enc := by
    obtain ⟨-, -, -, -, henc, -⟩ := exec_frame h
    rw [henc hi]
    exact .nothing i fun hi' => absurd hi' hi
  cases i with
  | crcClr => exact hother nofun
  | crcUpd b => exact hother nofun
  | decStart cap => exact hother nofun
  | decPut b => exact hother nofun
  | decEnd => exact hother nofun
  | encStart cap =>
    obtain ⟨hcap, rfl⟩ := exec_encStart_eq_next_iff.1 h
    exact .start cap hcap
  | encPut b =>
    by_cases hb : s.enc.state = .body
    · obtain rfl := Host.Outcome.next.inj ((exec_encPut_body b hb).symm.trans h)
      exact .put b hb
    · obtain rfl := Host.Outcome.next.inj ((exec_encPut_not_body b hb).symm.trans h)
      exact .nothing _ fun _ => ⟨rfl, hb⟩
  | encEnd =>
    by_cases hb : s.enc.state = .body
    · obtain rfl := Host.Outcome.next.inj ((exec_encEnd_body hb).symm.trans h)
      exact .finish hb
    · obtain rfl := Host.Outcome.next.inj ((exec_encEnd_not_body hb).symm.trans h)
      exact .nothing _ fun _ => ⟨rfl, hb⟩

theorem exec_decEffect {i : Instr} {s t : State} (h : exec i s = .next t) :
    DecEffect s.cfg s.dec s.decEsc i t.dec t.decEsc := by
  have hother (hi : i.component ≠ .dec) : DecEffect s.cfg s.dec s.decEsc i t.dec t.decEsc := by
    obtain ⟨-, -, -, -, -, hdec⟩ := exec_frame h
    rw [(hdec hi).1, (hdec hi).2]
    exact .nothing i fun hi' => absurd hi' hi
  cases i with
  | crcClr => exact hother nofun
  | crcUpd b => exact hother nofun
  | encStart cap => exact hother nofun
  | encPut b => exact hother nofun
  | encEnd => exact hother nofun
  | decStart cap =>
    obtain ⟨hcap, rfl⟩ := exec_decStart_eq_next_iff.1 h
    exact .start cap hcap
  | decPut b =>
    by_cases hb : s.dec.state = .body
    · obtain rfl := Host.Outcome.next.inj ((exec_decPut_body b hb rfl).symm.trans h)
      exact .put b hb
    · obtain rfl := Host.Outcome.next.inj ((exec_decPut_not_body b hb).symm.trans h)
      exact .nothing _ fun _ => ⟨rfl, hb⟩
  | decEnd =>
    by_cases hb : s.dec.state = .body
    · obtain rfl := Host.Outcome.next.inj ((exec_decEnd_body hb rfl).symm.trans h)
      exact .finish hb
    · obtain rfl := Host.Outcome.next.inj ((exec_decEnd_not_body hb).symm.trans h)
      exact .nothing _ fun _ => ⟨rfl, hb⟩

/-- A command that a unit in `BODY` does not react to is another unit's, and carries no byte for it. -/
theorem encPutByte_of_nothing {i : Instr} {u : FrameUnit}
    (h : i.component = .enc → startsEnc i = false ∧ u.state ≠ .body) (hb : u.state = .body) : encPutByte i = none := by
  cases i with
  | encPut b => exact absurd hb (h rfl).2
  | crcClr | crcUpd | encStart | encEnd | decStart | decPut | decEnd => rfl

theorem decPutByte_of_nothing {i : Instr} {u : FrameUnit}
    (h : i.component = .dec → startsDec i = false ∧ u.state ≠ .body) (hb : u.state = .body) : decPutByte i = none := by
  cases i with
  | decPut b => exact absurd hb (h rfl).2
  | crcClr | crcUpd | encStart | encPut | encEnd | decStart | decEnd => rfl

/-! ### The invariant under each effect -/

theorem FrameUnit.Sound.inBody_finish {n : Nat} {u : FrameUnit} (h : u.Sound n) :
    (u.inBody FrameUnit.finish).Sound n := by
  by_cases hb : u.state = .body
  · rw [FrameUnit.inBody_body hb]
    exact h.finish hb
  · rwa [FrameUnit.inBody_not_body hb]

theorem FrameUnit.Sound.decTake {n : Nat} {u : FrameUnit} (c : ReservedBytes) (pending : Bool) (b : Byte)
    (h : u.Sound n) : (u.decTake c pending b).Sound n := by
  rcases u.decTake_cases c pending b with e | e | ⟨v, e⟩ <;> rw [e]
  · exact h
  · exact h.raise _
  · exact h.decEmit v

theorem FrameUnit.Sound.decFinish {n : Nat} {u : FrameUnit} (pending : Bool) (h : u.Sound n) (hb : u.state = .body) :
    (u.decFinish pending).Sound n := by
  rcases u.decFinish_cases pending with e | ⟨-, -, -, e⟩ | ⟨-, hl, -, e⟩ <;> rw [e]
  · exact h.raise _
  · exact h.raise _
  · exact (h.dropTrailer hb hl).finish hb

theorem EncEffect.sound {c : Config} {u u' : FrameUnit} {i : Instr} (h : EncEffect c u i u') (hs : u.Sound c.outSize) :
    u'.Sound c.outSize := by
  cases h with
  | nothing => exact hs
  | start cap hcap => exact (hs.begin hcap).encEmit _
  | put b hb => exact (hs.accumulate b hb).encEmitAll _
  | finish hb => exact (hs.encEmitAll _).inBody_finish

theorem DecEffect.sound {c : Config} {u u' : FrameUnit} {pending pending' : Bool} {i : Instr}
    (h : DecEffect c u pending i u' pending') (hs : u.Sound c.msgSize) : u'.Sound c.msgSize := by
  cases h with
  | nothing => exact hs
  | start cap hcap => exact hs.begin hcap
  | put b hb => exact hs.decTake _ _ b
  | finish hb => exact hs.decFinish _ hb

/-- The codes that ENC's register ever holds (`10_state.md` R18). -/
def ErrorCode.OfEnc (e : ErrorCode) : Prop := e = .none ∨ e = .capacityExceeded

theorem FrameUnit.encEmit_err {u : FrameUnit} (v : Byte) (h : u.err.OfEnc) : (u.encEmit v).err.OfEnc := by
  rcases FrameUnit.encEmit_cases v u with e | ⟨-, -, e⟩ | ⟨-, -, e⟩ <;> rw [e]
  · exact h
  · exact .inr rfl
  · exact h

theorem FrameUnit.encEmitAll_err {u : FrameUnit} (vs : List Byte) (h : u.err.OfEnc) : (u.encEmitAll vs).err.OfEnc := by
  induction vs generalizing u with
  | nil => exact h
  | cons v vs ih => exact ih (FrameUnit.encEmit_err v h)

@[simp] theorem FrameUnit.inBody_finish_err (u : FrameUnit) : (u.inBody FrameUnit.finish).err = u.err := by
  unfold FrameUnit.inBody
  split <;> rfl

theorem EncEffect.err {c : Config} {u u' : FrameUnit} {i : Instr} (h : EncEffect c u i u') (he : u.err.OfEnc) :
    u'.err.OfEnc := by
  cases h with
  | nothing => exact he
  | start cap => exact FrameUnit.encEmit_err _ (.inl rfl)
  | put b => exact FrameUnit.encEmitAll_err (u := u.accumulate b) _ he
  | finish =>
    rw [FrameUnit.inBody_finish_err]
    exact FrameUnit.encEmitAll_err _ he

/-- `dec_esc` goes up only with an `ESC`, which writes nothing. -/
theorem FrameUnit.decTake_of_pendingAfter {c : ReservedBytes} {pending : Bool} {b : Byte} (u : FrameUnit)
    (h : pendingAfter c pending b = true) : pending = false ∧ b = c.esc ∧ u.decTake c pending b = u := by
  cases pending with
  | true => cases h
  | false =>
    obtain rfl : b = c.esc := beq_iff_eq.1 h
    exact ⟨rfl, rfl, FrameUnit.decTake_esc c u⟩

theorem DecEffect.escOnlyInBody {c : Config} {u u' : FrameUnit} {pending pending' : Bool} {i : Instr}
    (h : DecEffect c u pending i u' pending') (hs : pending = true → u.state = .body ∨ u.state = .err)
    (hp : pending' = true) : u'.state = .body ∨ u'.state = .err := by
  cases h with
  | nothing => exact hs hp
  | start => cases hp
  | put b hb =>
    obtain ⟨-, -, e⟩ := FrameUnit.decTake_of_pendingAfter u hp
    exact .inl (e.symm ▸ hb : (u.decTake c.bytes pending b).state = .body)
  | finish =>
    subst hp
    exact .inr rfl

/-- A command keeps the invariant of the block. -/
theorem exec_sound {i : Instr} {s t : State} (hs : s.Sound) (h : exec i s = .next t) : t.Sound := by
  obtain ⟨hcfg, -⟩ := exec_frame h
  exact
    { enc := hcfg ▸ (exec_encEffect h).sound hs.enc
      dec := hcfg ▸ (exec_decEffect h).sound hs.dec
      encErrKinds := (exec_encEffect h).err hs.encErrKinds
      escOnlyInBody := (exec_decEffect h).escOnlyInBody hs.escOnlyInBody }

/-! ### A step -/

/-- Everything a step can do. -/
theorem step_cases {s t : State} (h : step s = .next t) :
    (s.port = [] ∧ t = s) ∨
    (∃ rest, s.port = .reset :: rest ∧ t = (s.takeInput rest).externalReset) ∨
    ∃ cw rest i, s.port = .command cw :: rest ∧ decode cw = .ok i ∧ exec i (s.takeInput rest) = .next t := by
  unfold step at h
  split at h
  · next hport =>
    cases h
    exact .inl ⟨hport, rfl⟩
  · next rest hport =>
    cases h
    exact .inr (.inl ⟨rest, hport, rfl⟩)
  · next cw rest hport =>
    split at h
    · next i hdec => exact .inr (.inr ⟨cw, rest, i, hport, hdec, h⟩)
    · cases h

theorem State.Sound.takeInput {s : State} (rest : List HostInput) (h : s.Sound) : (s.takeInput rest).Sound where
  enc := h.enc
  dec := h.dec
  encErrKinds := h.encErrKinds
  escOnlyInBody := h.escOnlyInBody

theorem State.Sound.externalReset {s : State} (h : s.Sound) : s.externalReset.Sound where
  enc := h.enc.resetRegisters
  dec := h.dec.resetRegisters
  encErrKinds := .inl rfl
  escOnlyInBody := nofun

/-- Settles O12: the invariant holds of what a step keeps, resets (`Sound.externalReset`) or lets a command do
(`exec_sound`). -/
theorem everyStepKeepsSound : Obligations.EveryStepKeepsSound := by
  intro s t hs h
  rcases step_cases h with ⟨-, rfl⟩ | ⟨rest, -, rfl⟩ | ⟨cw, rest, i, -, -, hexec⟩
  · exact hs
  · exact (hs.takeInput rest).externalReset
  · exact exec_sound (hs.takeInput rest) hexec

/-- The registers of a unit after reset, over no written cell. -/
theorem FrameUnit.atReset_sound (n : Nat) : FrameUnit.atReset.Sound n where
  errIffErr := by decide
  lenLeCap := le_rfl
  capLeSize := Nat.zero_le n
  bufWf := List.Pairwise.nil
  bufBelow := nofun
  bufWritten := nofun
  idleClear := fun _ => ⟨rfl, rfl, rfl⟩

/-- Settles O11: both units are as after reset, and no escape is pending. -/
theorem resetIsSound : Obligations.ResetIsSound where
  enc := FrameUnit.atReset_sound _
  dec := FrameUnit.atReset_sound _
  encErrKinds := .inl rfl
  escOnlyInBody := nofun

/-! ### Which commands complete -/

/-- A command answers a next state exactly when it is well-formed (`20_memory.md` R40). -/
theorem exec_next_iff_wellFormed (i : Instr) (s : State) :
    (∃ t, exec i s = .next t) ↔ i.wellFormed s.cfg = true := by
  cases i with
  | crcClr => exact iff_of_true ⟨_, rfl⟩ rfl
  | crcUpd b => exact iff_of_true ⟨_, rfl⟩ rfl
  | encStart cap => simp [exec_encStart_eq_next_iff, Instr.wellFormed]
  | encPut b => exact iff_of_true ⟨_, rfl⟩ rfl
  | encEnd => exact iff_of_true ⟨_, rfl⟩ rfl
  | decStart cap => simp [exec_decStart_eq_next_iff, Instr.wellFormed]
  | decPut b =>
    refine iff_of_true ?_ rfl
    by_cases hb : s.dec.state = .body
    · exact ⟨_, exec_decPut_body b hb rfl⟩
    · exact ⟨_, exec_decPut_not_body b hb⟩
  | decEnd => exact iff_of_true ⟨_, rfl⟩ rfl

/-- A `START` whose capacity the buffer cannot hold is refused by name. -/
theorem State.ifFits_refused {s t : State} {sp : Space} {cap : Cap} (h : s.cfg.size sp < cap.toNat) :
    s.ifFits sp cap t = .refused (.capacityBeyondBuffer sp cap) :=
  if_neg (not_le.2 h)

/-- Settles O14: both `START`s are `ifFits`. -/
theorem startBeyondTheBufferIsRefused : Obligations.StartBeyondTheBufferIsRefused :=
  fun _ _ => ⟨fun h => State.ifFits_refused (sp := .out) h, fun h => State.ifFits_refused (sp := .msg) h⟩

/-- No command faults: one that is not well-formed is a `START`, which is refused. -/
theorem exec_ne_fault (i : Instr) (s : State) (r : Fault) : exec i s ≠ .fault r := by
  by_cases hwf : i.wellFormed s.cfg = true
  · obtain ⟨t, ht⟩ := (exec_next_iff_wellFormed i s).2 hwf
    simp [ht]
  · cases i with
    | encStart cap =>
      obtain ⟨hrefused, -⟩ := startBeyondTheBufferIsRefused cap s
      simp [hrefused (by simpa [Instr.wellFormed] using hwf)]
    | decStart cap =>
      obtain ⟨-, hrefused⟩ := startBeyondTheBufferIsRefused cap s
      simp [hrefused (by simpa [Instr.wellFormed] using hwf)]
    | crcClr | crcUpd | encPut | encEnd | decPut | decEnd => exact absurd rfl hwf

/-- Settles O13: completion is being well-formed (`exec_next_iff_wellFormed`), which for a `START` is that its capacity
fits; the only steps that perform something else than a command are the reset and the step with no input. -/
theorem everyCommandCompletes : Obligations.EveryCommandCompletes := by
  refine ⟨fun i s => (exec_next_iff_wellFormed i s).2, fun i s h => ?_, fun s r h => ?_⟩
  · have hwf := (exec_next_iff_wellFormed i s).1 h
    constructor
    · rintro cap rfl
      exact of_decide_eq_true hwf
    · rintro cap rfl
      exact of_decide_eq_true hwf
  · unfold step at h
    split at h
    · cases h
    · cases h
    · split at h
      · exact exec_ne_fault _ _ _ h
      · cases h

/-! ### The step as the rules state it -/

theorem step_command {s : State} {cw : CommandWord} {i : Instr} {rest : List HostInput}
    (hport : s.port = .command cw :: rest) (hdec : decode cw = .ok i) : step s = exec i (s.takeInput rest) := by
  simp only [step, hport, hdec]

/-- Settles O7: taking the input moves the port and the draw counter. -/
theorem stepRunsTheDecodedCommand : Obligations.StepRunsTheDecodedCommand := fun _ _ _ _ => step_command

/-- Settles O8: the first branch of `step`. -/
theorem noInputHoldsTheState : Obligations.NoInputHoldsTheState := by
  intro s hport
  simp only [step, hport]

/-- Settles O15: the inequalities are `pairwise_ne`; a command keeps the configuration (`exec_frame`), and so do the
other steps. -/
theorem configurationIsValidAndConstant : Obligations.ConfigurationIsValidAndConstant := by
  refine ⟨ReservedBytes.pairwise_ne, fun s t h => ?_⟩
  rcases step_cases h with ⟨-, rfl⟩ | ⟨rest, -, rfl⟩ | ⟨cw, rest, i, -, -, hexec⟩
  · rfl
  · rfl
  · obtain ⟨hcfg, -⟩ := exec_frame hexec
    exact hcfg

/-- A cell of a unit that is not in `DONE` is unspecified to the host (`20_memory.md` R33). -/
theorem State.cellValue_of_not_done {s : State} {sp : Space} (i : Cap) (h : (s.frameUnit sp).state ≠ .done) :
    s.cellValue sp i = Config.unspecifiedByte s.draws sp i.toNat :=
  if_neg fun hd => h hd.1

/-- Settles O9: the reset leaves both units in `IDLE`, so no cell is specified. -/
theorem externalResetClearsRegistersOnly : Obligations.ExternalResetClearsRegistersOnly := by
  intro s rest hport
  refine ⟨(s.takeInput rest).externalReset, by simp only [step, hport], rfl, rfl, rfl, rfl, rfl, fun sp i => ?_⟩
  cases sp <;> exact State.cellValue_of_not_done i nofun

/-- Settles O10: both units are in `IDLE`, so no cell is specified and the length outputs are the registers. -/
theorem resetValues : Obligations.ResetValues := by
  refine ⟨rfl, ⟨rfl, rfl, rfl, rfl, rfl⟩, ⟨rfl, rfl, rfl, rfl, rfl, rfl⟩, rfl, fun sp i => ?_, rfl⟩
  cases sp <;> exact State.cellValue_of_not_done i nofun

end Sys2Proof.Machine
end

section
/-! SUPPORT. A program at the port (`20_memory.md` R41). No command reads the port or the draw counter, the model's
own two fields (log 5, log 9), so taking the words one by one from the port is performing the commands. -/

namespace Sys2Proof.Machine

/-- The state with other values of the model's own two fields. -/
def State.withHost (port : List HostInput) (draws : Nat) (s : State) : State := { s with port := port, draws := draws }

/-- The same in an answer. -/
def outcomeWithHost (port : List HostInput) (draws : Nat) :
    Host.Outcome State Fault Refusal → Host.Outcome State Fault Refusal
  | .next t => .next (t.withHost port draws)
  | .fault r => .fault r
  | .refused r => .refused r

theorem State.ifFits_withHost (port : List HostInput) (draws : Nat) (s t : State) (sp : Space) (cap : Cap) :
    (s.withHost port draws).ifFits sp cap (t.withHost port draws) = outcomeWithHost port draws (s.ifFits sp cap t) := by
  by_cases h : cap.toNat ≤ s.cfg.size sp
  · rw [State.ifFits, State.ifFits, if_pos h, if_pos (c := cap.toNat ≤ (s.withHost port draws).cfg.size sp) h]
    rfl
  · rw [State.ifFits, State.ifFits, if_neg h, if_neg (c := cap.toNat ≤ (s.withHost port draws).cfg.size sp) h]
    rfl

/-- No command reads or writes the port or the draw counter. -/
theorem exec_withHost (port : List HostInput) (draws : Nat) (i : Instr) (s : State) :
    exec i (s.withHost port draws) = outcomeWithHost port draws (exec i s) := by
  cases i with
  | encStart cap =>
    exact State.ifFits_withHost port draws s (s.setEnc ((s.enc.begin cap).encEmit s.cfg.bytes.delim)) .out cap
  | decStart cap =>
    exact State.ifFits_withHost port draws s ((s.setDec (s.dec.begin cap)).setDecEsc false) .msg cap
  | decPut b =>
    by_cases hb : s.dec.state = .body
    · rw [exec_decPut_body b (s := s) hb rfl, exec_decPut_body b (s := s.withHost port draws) hb rfl]
      rfl
    · rw [exec_decPut_not_body b (s := s) hb, exec_decPut_not_body b (s := s.withHost port draws) hb]
      rfl
  | crcClr | crcUpd | encPut | encEnd | decEnd => rfl

/-- The words of a sequence as the host presents them. -/
def wordsOf (is : List Instr) : List HostInput := is.map fun i => .command (encode i)

theorem core_run_of_next {k : Nat} {s t : State} (h : step s = .next t) :
    Host.Core.run core (k + 1) s = Host.Core.run core k t := by
  simp only [Host.Core.run, core, h]

theorem core_run_of_fault {k : Nat} {s : State} {r : Fault} (h : step s = .fault r) :
    Host.Core.run core (k + 1) s = .fault r := by
  simp only [Host.Core.run, core, h]

theorem core_run_of_refused {k : Nat} {s : State} {r : Refusal} (h : step s = .refused r) :
    Host.Core.run core (k + 1) s = .refused r := by
  simp only [Host.Core.run, core, h]

/-- With the words of a sequence as the whole port, as many steps perform the sequence. -/
theorem run_wordsOf (is : List Instr) {s : State} (draws : Nat) (hport : s.port = []) :
    Host.Core.run core is.length (s.withHost (wordsOf is) draws) =
      outcomeWithHost [] (draws + is.length) (execAll is s) := by
  induction is generalizing s draws with
  | nil => rfl
  | cons i is ih =>
    have hstep : step (s.withHost (wordsOf (i :: is)) draws) =
        outcomeWithHost (wordsOf is) (draws + 1) (exec i s) :=
      (step_command (s := s.withHost (wordsOf (i :: is)) draws) rfl (decodeOfEncodeIsTheCommand i)).trans
        (exec_withHost (wordsOf is) (draws + 1) i s)
    cases hexec : exec i s with
    | next t =>
      obtain ⟨-, htport, -⟩ := exec_frame hexec
      rw [hexec] at hstep
      rw [execAll_cons_of_next hexec, List.length_cons, Nat.add_comm is.length 1, ← Nat.add_assoc, Nat.add_comm 1]
      exact (core_run_of_next hstep).trans (ih (draws + 1) (htport.trans hport))
    | fault r =>
      rw [hexec] at hstep
      rw [execAll, hexec]
      exact core_run_of_fault hstep
    | refused r =>
      rw [hexec] at hstep
      rw [execAll, hexec]
      exact core_run_of_refused hstep

/-- A sequence leaves the port and the draw counter. -/
theorem execAll_host {is : List Instr} {s t : State} (h : execAll is s = .next t) :
    t.cfg = s.cfg ∧ t.port = s.port ∧ t.draws = s.draws := by
  induction is generalizing s with
  | nil =>
    cases h
    exact ⟨rfl, rfl, rfl⟩
  | cons i is ih =>
    rw [execAll] at h
    split at h
    · next r hexec =>
      obtain ⟨hcfg, hport, hdraws, -⟩ := exec_frame hexec
      obtain ⟨hcfg', hport', hdraws'⟩ := ih h
      exact ⟨hcfg'.trans hcfg, hport'.trans hport, hdraws'.trans hdraws⟩
    · cases h
    · cases h

/-- Settles O18: `run_wordsOf`, with nothing else at the port. -/
theorem presentedProgramRunsInOrder : Obligations.PresentedProgramRunsInOrder := by
  intro is s hport
  have hpresent : s.present is = s.withHost (wordsOf is) s.draws := by
    rw [State.present, hport, List.append_nil]
    rfl
  rw [hpresent, run_wordsOf is s.draws hport]
  cases hexec : execAll is s with
  | next t =>
    obtain ⟨-, htport, -⟩ := execAll_host hexec
    show Host.Outcome.next (t.withHost [] _) = _
    rw [← hport, ← htport]
    rfl
  | fault r => rfl
  | refused r => rfl

end Sys2Proof.Machine
end

section
/-! SUPPORT. The checksum functions (`40_crc.md` R65 to R76). The shift step is linear over exclusive-or and maps only
0x00 to 0x00; linearity of the byte step and of `calc`, and the detection of every change in one byte, follow from
these two facts (R73). -/

namespace Sys2Proof.Machine

/-! ### The shift step and the byte step -/

/-- The polynomial mask that a shift step adds, by the bit shifted out (`40_crc.md` R65). -/
def crcFeedback (d : Bool) : Byte := if d then 0x07 else 0x00

theorem crcFeedback_xor (d e : Bool) : crcFeedback (d ^^ e) = crcFeedback d ^^^ crcFeedback e := by
  cases d <;> cases e <;> rfl

theorem crcShift1_eq (r : Byte) : crcShift1 r = r <<< 1 ^^^ crcFeedback (r.getLsbD 7) := by
  unfold crcShift1
  cases r.getLsbD 7 with
  | true => rfl
  | false => exact BitVec.xor_zero.symm

theorem crcSerialBit_eq (r : Byte) (d : Bool) : crcSerialBit r d = r <<< 1 ^^^ crcFeedback (r.getLsbD 7 ^^ d) := by
  unfold crcSerialBit
  cases (r.getLsbD 7 ^^ d) with
  | true => rfl
  | false => exact BitVec.xor_zero.symm

/-- A shift step of a register with a byte added is the serial step with the byte's top bit, and the rest of the byte
moves up. -/
theorem crcShift1_xor_serial (r b : Byte) : crcShift1 (r ^^^ b) = crcSerialBit r (b.getLsbD 7) ^^^ b <<< 1 := by
  rw [crcShift1_eq, crcSerialBit_eq, BitVec.shiftLeft_xor_distrib, BitVec.getLsbD_xor, BitVec.xor_assoc,
    BitVec.xor_comm (b <<< 1), ← BitVec.xor_assoc]

theorem crcShift1_xor (a b : Byte) : crcShift1 (a ^^^ b) = crcShift1 a ^^^ crcShift1 b := by
  rw [crcShift1_xor_serial, crcSerialBit_eq, crcShift1_eq a, crcShift1_eq b, crcFeedback_xor,
    BitVec.xor_comm (b <<< 1), BitVec.xor_assoc, BitVec.xor_assoc, BitVec.xor_assoc]

theorem crcShift1_iterate_xor (n : Nat) (a b : Byte) :
    crcShift1^[n] (a ^^^ b) = crcShift1^[n] a ^^^ crcShift1^[n] b := by
  induction n with
  | zero => rfl
  | succ n ih => rw [Function.iterate_succ_apply', ih, crcShift1_xor, Function.iterate_succ_apply',
      Function.iterate_succ_apply']

/-- `BitVec.zero_xor`, at the numeral the model writes. -/
theorem byte_zero_xor (b : Byte) : 0x00 ^^^ b = b := BitVec.zero_xor

theorem crcShift1_eq_zero {r : Byte} (h : crcShift1 r = 0x00) : r = 0x00 := by
  revert r
  decide

theorem crcShift1_injective : Function.Injective crcShift1 := fun a b h =>
  BitVec.xor_eq_zero_iff.1 (crcShift1_eq_zero ((crcShift1_xor a b).trans (h ▸ BitVec.xor_self)))

theorem crcByte_xor (r1 r2 b1 b2 : Byte) : crcByte (r1 ^^^ r2) (b1 ^^^ b2) = crcByte r1 b1 ^^^ crcByte r2 b2 := by
  have hswap : r1 ^^^ r2 ^^^ (b1 ^^^ b2) = r1 ^^^ b1 ^^^ (r2 ^^^ b2) := by
    rw [BitVec.xor_assoc, ← BitVec.xor_assoc r2, BitVec.xor_comm r2, BitVec.xor_assoc b1, ← BitVec.xor_assoc]
  rw [crcByte, hswap]
  exact crcShift1_iterate_xor 8 _ _

/-- The byte step depends on the exclusive-or of its operands only (`40_crc.md` R66). -/
theorem crcByte_eq_crcByte_zero (r b : Byte) : crcByte r b = crcByte 0x00 (r ^^^ b) := by
  rw [crcByte, crcByte, byte_zero_xor]

theorem crcByte_zero_injective : Function.Injective (crcByte 0x00) := fun a b h =>
  crcShift1_injective.iterate 8 (by simpa only [crcByte, byte_zero_xor] using h)

theorem crcByte_right_injective (r : Byte) : Function.Injective (crcByte r) := fun a b h => by
  rw [crcByte_eq_crcByte_zero r a, crcByte_eq_crcByte_zero r b] at h
  exact (BitVec.xor_right_inj _).1 (crcByte_zero_injective h)

theorem crcByte_left_injective (b : Byte) : Function.Injective (crcByte · b) := by
  intro r r' (h : crcByte r b = crcByte r' b)
  rw [crcByte_eq_crcByte_zero r b, crcByte_eq_crcByte_zero r' b] at h
  exact (BitVec.xor_left_inj _).1 (crcByte_zero_injective h)

set_option maxRecDepth 4000 in
/-- Settles O19: evaluation of the definitions on the spec's values. -/
theorem crcWorkedExamples : Obligations.CrcWorkedExamples := by
  refine ⟨?_, ?_, ?_, ?_, ?_, ?_, ?_, ?_, ?_, ?_, ?_⟩ <;> decide

/-! ### The serial form -/

/-- `n` shift steps take in the top `n` bits of the byte, bit 7 first. -/
theorem crcShift1_iterate_serial (r b : Byte) {n : Nat} (hn : n ≤ 8) :
    crcShift1^[n] (r ^^^ b) = ((List.range n).map fun k => b.getLsbD (7 - k)).foldl crcSerialBit r ^^^ b <<< n := by
  induction n with
  | zero => simp
  | succ n ih =>
    have htop : (b <<< n).getLsbD 7 = b.getLsbD (7 - n) := by
      rw [BitVec.getLsbD_shiftLeft, decide_eq_false (by omega : ¬7 < n)]
      simp
    rw [Function.iterate_succ_apply', ih (by omega), crcShift1_xor_serial, htop, List.range_succ, List.map_append,
      List.foldl_append, BitVec.shiftLeft_add]
    rfl

/-- Settles O21: after eight shift steps nothing of the byte is left in the register. -/
theorem bitSerialFormAgrees : Obligations.BitSerialFormAgrees := by
  intro r b
  have hend : b <<< 8 = 0#8 := BitVec.shiftLeft_eq_zero le_rfl
  have hserial := crcShift1_iterate_serial r b (le_refl 8)
  rw [hend, BitVec.xor_zero] at hserial
  exact hserial.symm

/-! ### The table -/

set_option maxRecDepth 4000 in
/-- The table computed (`40_crc.md` R76). -/
theorem crcTable_eq_map : crcTable = (List.range 256).map fun k => crcByte 0x00 (BitVec.ofNat 8 k) := by decide

theorem crcTable_getElem? (b : Byte) : crcTable[b.toNat]? = some (crcByte 0x00 b) := by
  rw [crcTable_eq_map, List.getElem?_map, List.getElem?_range b.isLt, Option.map_some, BitVec.ofNat_toNat,
    BitVec.setWidth_eq]

/-- Settles O23: the table is the injective byte step from 0x00 on the numbers below 256. -/
theorem crcTableIsTheByteStep : Obligations.CrcTableIsTheByteStep := by
  rw [Obligations.CrcTableIsTheByteStep, crcTable_eq_map]
  refine ⟨by simp, ?_, fun b => crcTable_eq_map ▸ crcTable_getElem? b⟩
  refine List.nodup_range.map_on fun k hk l hl h => ?_
  have hkl := congrArg BitVec.toNat (crcByte_zero_injective h)
  rwa [BitVec.toNat_ofNat, BitVec.toNat_ofNat, Nat.mod_eq_of_lt (List.mem_range.1 hk),
    Nat.mod_eq_of_lt (List.mem_range.1 hl)] at hkl

/-! ### The checksum of a sequence -/

/-- `40_crc.md` R71. -/
theorem crcFrom_append (r : Byte) (d e : List Byte) : crcFrom r (d ++ e) = crcFrom (crcFrom r d) e := List.foldl_append

theorem crcCalc_append (d e : List Byte) : crcCalc (d ++ e) = crcFrom (crcCalc d) e := crcFrom_append _ _ _

@[simp] theorem crcCalc_concat (d : List Byte) (b : Byte) : crcCalc (d ++ [b]) = crcByte (crcCalc d) b :=
  crcCalc_append d [b]

/-- A sequence followed by its checksum has checksum 0x00 (`40_crc.md` R70). -/
theorem crcCalc_append_crcCalc (d : List Byte) : crcCalc (d ++ [crcCalc d]) = 0x00 := by
  rw [crcCalc_concat, crcByte_self]

theorem verifies_eq_true_iff (d : List Byte) : verifies d = true ↔ crcCalc d = 0x00 := beq_iff_eq

/-- Settles O20: the last byte step adds the checksum to itself. -/
theorem checksumVerifiesItself : Obligations.ChecksumVerifiesItself :=
  ⟨crcByte_self, fun d => ⟨crcCalc_append_crcCalc d, (verifies_eq_true_iff _).2 (crcCalc_append_crcCalc d)⟩⟩

theorem crcFrom_injective (d : List Byte) : Function.Injective (crcFrom · d) := by
  induction d with
  | nil => exact fun r r' h => h
  | cons b d ih => exact fun r r' h => crcByte_left_injective b (ih h)

theorem crcFrom_zipWith_xor {u e : List Byte} (h : u.length = e.length) (r1 r2 : Byte) :
    crcFrom (r1 ^^^ r2) (List.zipWith (· ^^^ ·) u e) = crcFrom r1 u ^^^ crcFrom r2 e := by
  induction u generalizing e r1 r2 with
  | nil =>
    obtain rfl := List.length_eq_zero_iff.1 h.symm
    rfl
  | cons b u ih =>
    cases e with
    | nil => cases h
    | cons b' e =>
      rw [List.zipWith_cons_cons, crcFrom_cons, crcByte_xor, ih (Nat.succ.inj h), crcFrom_cons, crcFrom_cons]

/-- A leading 0x00 does not move the cleared register. -/
theorem crcCalc_zero_cons (d : List Byte) : crcCalc (0x00 :: d) = crcCalc d := by
  rw [crcCalc, crcFrom_cons, crcByte_self, crcCalc]

/-- A change confined to one byte changes the checksum (`40_crc.md` R73). -/
theorem crcCalc_ne_of_ne (pre post : List Byte) {x y : Byte} (h : x ≠ y) :
    crcCalc (pre ++ x :: post) ≠ crcCalc (pre ++ y :: post) := by
  rw [crcCalc_append, crcCalc_append]
  exact fun he => h (crcByte_right_injective _ (crcFrom_injective post he))

/-- A verified sequence with one byte changed does not verify. -/
theorem crcCalc_ne_zero_of_changed {d pre post : List Byte} {x y : Byte} (hd : crcCalc d = 0x00)
    (hsplit : d = pre ++ x :: post) (h : x ≠ y) : crcCalc (pre ++ y :: post) ≠ 0x00 := by
  rw [← hd, hsplit]
  exact (crcCalc_ne_of_ne pre post h).symm

/-- Settles O22: linearity of the byte step, carried along two sequences, and its injectivity in both operands, carried
along the rest of a sequence. -/
theorem crcIsLinearAndCatchesOneByte : Obligations.CrcIsLinearAndCatchesOneByte := by
  refine ⟨crcByte_xor, fun u e h => ?_, fun r b => ?_, rfl, Finite.injective_iff_bijective.1 crcByte_zero_injective,
    fun pre post x y => crcCalc_ne_of_ne pre post, fun p k y hk hy => ?_, fun d => ?_⟩
  · exact crcFrom_zipWith_xor h 0x00 0x00
  · rw [crcTable_getElem?, ← crcByte_eq_crcByte_zero]
  · have hsplit : p ++ [crcCalc p] =
        (p ++ [crcCalc p]).take k ++ (p ++ [crcCalc p])[k] :: (p ++ [crcCalc p]).drop (k + 1) := by
      rw [← List.drop_eq_getElem_cons hk, List.take_append_drop]
    have hne : (p ++ [crcCalc p])[k] ≠ y := fun h => hy (by rw [List.getElem?_eq_getElem hk, h])
    rw [List.set_eq_take_append_cons_drop, if_pos hk]
    exact beq_eq_false_iff_ne.2 (crcCalc_ne_zero_of_changed (crcCalc_append_crcCalc p) hsplit hne)
  · exact crcCalc_zero_cons d

/-- Settles O25: both expansions clear the register and take in the bytes (`execAll_crcClr_crcUpd`). -/
theorem calcAndVerifyCompute : Obligations.CalcAndVerifyCompute :=
  fun d s => ⟨execAll_crcClr_crcUpd d s, execAll_crcClr_crcUpd d s, rfl⟩

end Sys2Proof.Machine
end

section
/-! SUPPORT. The wire format (`30_encoding.md` R45 to R52): the escaped form of a byte is one byte or a two-byte symbol
(`escape_cases`), so the symbol table reads it back whatever follows it, and its length is `elen`. -/

namespace Sys2Proof.Machine

/-! ### Escaped sequences -/

/-- The three kinds of byte and their escaped forms (`30_encoding.md` R46). -/
theorem escape_cases (c : ReservedBytes) (b : Byte) :
    (b = c.delim ∧ escape c b = [c.esc, c.escDelim]) ∨ (b = c.esc ∧ escape c b = [c.esc, c.escEsc]) ∨
      (b ≠ c.delim ∧ b ≠ c.esc ∧ escape c b = [b]) := by
  by_cases hd : b = c.delim
  · exact .inl ⟨hd, hd ▸ escape_delim c⟩
  · by_cases he : b = c.esc
    · exact .inr (.inl ⟨he, he ▸ escape_esc c⟩)
    · exact .inr (.inr ⟨hd, he, escape_other c hd he⟩)

/-- The two-byte symbols. -/
theorem escape_eq_pair {c : ReservedBytes} {x k : Byte} (h : escape c x = [c.esc, k]) :
    (x = c.delim ∧ k = c.escDelim) ∨ (x = c.esc ∧ k = c.escEsc) := by
  rcases escape_cases c x with ⟨hx, e⟩ | ⟨hx, e⟩ | ⟨-, -, e⟩
  · exact .inl ⟨hx, by simpa using h.symm.trans e⟩
  · exact .inr ⟨hx, by simpa using h.symm.trans e⟩
  · simpa using h.symm.trans e

@[simp] theorem escaped_nil (c : ReservedBytes) : escaped c [] = [] := rfl

@[simp] theorem escaped_cons (c : ReservedBytes) (b : Byte) (s : List Byte) :
    escaped c (b :: s) = escape c b ++ escaped c s := rfl

theorem escaped_append (c : ReservedBytes) (s s' : List Byte) : escaped c (s ++ s') = escaped c s ++ escaped c s' :=
  List.flatMap_append

theorem escaped_singleton (c : ReservedBytes) (b : Byte) : escaped c [b] = escape c b := List.flatMap_singleton _ _

/-- A frame is its escaped payload and checksum between two delimiters. -/
theorem wire_eq (c : ReservedBytes) (p : List Byte) :
    wire c p = c.delim :: (escaped c (p ++ [crcCalc p]) ++ [c.delim]) := by
  rw [escaped_append, escaped_singleton]
  rfl

theorem stripDelimiters_wire (c : ReservedBytes) (p : List Byte) :
    stripDelimiters (wire c p) = escaped c (p ++ [crcCalc p]) := by
  rw [wire_eq, stripDelimiters, List.tail_cons, List.dropLast_concat]

/-- The symbol table reads an escaped byte back, whatever follows it (`30_encoding.md` R48). -/
theorem unescape_escape_append (c : ReservedBytes) (b : Byte) (r : List Byte) :
    unescape c (escape c b ++ r) = (unescape c r).map (b :: ·) := by
  rcases escape_cases c b with ⟨rfl, e⟩ | ⟨rfl, e⟩ | ⟨-, hesc, e⟩ <;> rw [e]
  · simp [unescape]
  · simp [unescape]
  · cases r with
    | nil => simp [unescape, hesc]
    | cons b' r => simp [unescape, hesc]

theorem unescape_escaped (c : ReservedBytes) (s : List Byte) : unescape c (escaped c s) = some s := by
  induction s with
  | nil => rfl
  | cons b s ih => rw [escaped_cons, unescape_escape_append, ih, Option.map_some]

theorem escape_injective (c : ReservedBytes) : Function.Injective (escape c) := fun a b h => by
  have hread (x : Byte) : unescape c (escape c x) = some [x] := by rw [← escaped_singleton, unescape_escaped]
  exact List.singleton_injective (Option.some.inj ((hread a).symm.trans (h ▸ hread b)))

theorem delim_not_mem_escape (c : ReservedBytes) (b : Byte) : c.delim ∉ escape c b := by
  obtain ⟨hde, hdD, hdE, -⟩ := c.pairwise_ne
  rcases escape_cases c b with ⟨-, e⟩ | ⟨-, e⟩ | ⟨hd, -, e⟩ <;> rw [e]
  · simp [hde, hdD]
  · simp [hde, hdE]
  · simp [hd.symm]

theorem delim_not_mem_escaped (c : ReservedBytes) (s : List Byte) : c.delim ∉ escaped c s := by
  intro h
  obtain ⟨b, -, hb⟩ := List.mem_flatMap.1 h
  exact delim_not_mem_escape c b hb

/-- A frame holds `DELIM` at its two ends only. -/
theorem wire_getElem?_eq_delim_iff (c : ReservedBytes) (p : List Byte) (k : Nat) :
    (wire c p)[k]? = some c.delim ↔ k = 0 ∨ k + 1 = (wire c p).length := by
  rw [wire_eq]
  cases k with
  | zero => simp
  | succ j =>
    rw [List.getElem?_cons_succ, List.length_cons, List.length_append, List.length_singleton]
    rcases lt_trichotomy j (escaped c (p ++ [crcCalc p])).length with hj | hj | hj
    · rw [List.getElem?_append_left hj]
      refine iff_of_false (fun h => ?_) (by omega)
      exact delim_not_mem_escaped c _ (List.mem_of_getElem? h)
    · rw [hj]
      simp
    · refine iff_of_false (fun h => ?_) (by omega)
      rw [List.getElem?_eq_none (by simp; omega)] at h
      cases h

/-- An `ESC` after an escaped byte begins that byte's symbol or stands beyond it. -/
theorem escape_append_eq {c : ReservedBytes} {b : Byte} {r pre post : List Byte}
    (h : escape c b ++ r = pre ++ c.esc :: post) :
    (∃ k, escape c b = [c.esc, k] ∧ pre = [] ∧ post = k :: r) ∨
      ∃ pre', pre = escape c b ++ pre' ∧ r = pre' ++ c.esc :: post := by
  obtain ⟨-, -, -, heD, heE, -⟩ := c.pairwise_ne
  have hpair (k : Byte) (hk : c.esc ≠ k) (he : escape c b = [c.esc, k]) (h : [c.esc, k] ++ r = pre ++ c.esc :: post) :
      (∃ k, escape c b = [c.esc, k] ∧ pre = [] ∧ post = k :: r) ∨
        ∃ pre', pre = escape c b ++ pre' ∧ r = pre' ++ c.esc :: post := by
    rcases pre with _ | ⟨x, _ | ⟨y, pre'⟩⟩
    · exact .inl ⟨k, he, rfl, by simpa using h.symm⟩
    · simp [hk.symm] at h
    · obtain ⟨rfl, rfl, hr⟩ : c.esc = x ∧ k = y ∧ r = pre' ++ c.esc :: post := by simpa using h
      exact .inr ⟨pre', by rw [he]; rfl, hr⟩
  rcases escape_cases c b with ⟨-, e⟩ | ⟨-, e⟩ | ⟨-, hesc, e⟩
  · exact hpair _ heD e (e ▸ h)
  · exact hpair _ heE e (e ▸ h)
  · rw [e] at h ⊢
    cases pre with
    | nil => exact absurd (List.cons.inj h).1 hesc
    | cons x pre' =>
      obtain ⟨rfl, hr⟩ := List.cons.inj h
      exact .inr ⟨pre', rfl, hr⟩

/-- Every `ESC` in an escaped sequence begins a two-byte symbol. -/
theorem escaped_eq_append_esc {c : ReservedBytes} {s pre post : List Byte} (h : escaped c s = pre ++ c.esc :: post) :
    ∃ s1 x s2 k, s = s1 ++ x :: s2 ∧ escape c x = [c.esc, k] ∧ pre = escaped c s1 ∧ post = k :: escaped c s2 := by
  induction s generalizing pre with
  | nil => simp at h
  | cons b s ih =>
    rcases escape_append_eq h with ⟨k, he, rfl, rfl⟩ | ⟨pre', rfl, hr⟩
    · exact ⟨[], b, s, k, rfl, he, rfl, rfl⟩
    · obtain ⟨s1, x, s2, k, rfl, he, rfl, rfl⟩ := ih hr
      exact ⟨b :: s1, x, s2, k, rfl, he, rfl, rfl⟩

/-- Settles O27: reading back (`unescape_escaped`), the absence of `DELIM`, and the place of every `ESC`
(`escaped_eq_append_esc`). -/
theorem wireFormatIsUnambiguous : Obligations.WireFormatIsUnambiguous := by
  refine fun c => ⟨escape_injective c, unescape_escaped c, delim_not_mem_escaped c, wire_getElem?_eq_delim_iff c,
    fun s pre post h => ?_⟩
  obtain ⟨s1, x, s2, k, rfl, he, rfl, rfl⟩ := escaped_eq_append_esc h
  rcases escape_eq_pair he with ⟨rfl, rfl⟩ | ⟨rfl, rfl⟩
  · exact .inl ⟨s1, s2, rfl, rfl, rfl⟩
  · exact .inr ⟨s1, s2, rfl, rfl, rfl⟩

/-! ### Lengths -/

theorem escapedLen_reserved {c : ReservedBytes} {b : Byte} (h : b = c.delim ∨ b = c.esc) : escapedLen c b = 2 :=
  if_pos h

theorem escapedLen_other {c : ReservedBytes} {b : Byte} (hd : b ≠ c.delim) (he : b ≠ c.esc) : escapedLen c b = 1 :=
  if_neg fun h => h.elim hd he

theorem escapedLen_bounds (c : ReservedBytes) (b : Byte) : 1 ≤ escapedLen c b ∧ escapedLen c b ≤ 2 := by
  unfold escapedLen
  split <;> decide

@[simp] theorem escape_length (c : ReservedBytes) (b : Byte) : (escape c b).length = escapedLen c b := by
  rcases escape_cases c b with ⟨h, e⟩ | ⟨h, e⟩ | ⟨hd, he, e⟩ <;> rw [e]
  · exact (escapedLen_reserved (.inl h)).symm
  · exact (escapedLen_reserved (.inr h)).symm
  · exact (escapedLen_other hd he).symm

theorem escaped_length (c : ReservedBytes) (s : List Byte) : (escaped c s).length = (s.map (escapedLen c)).sum := by
  simp [escaped, List.length_flatMap]

/-- The length of a frame, over the payload with its checksum. -/
theorem frameLen_eq (c : ReservedBytes) (p : List Byte) :
    frameLen c p = ((p ++ [crcCalc p]).map (escapedLen c)).sum + 2 := by
  simp [frameLen]
  omega

theorem wire_length (c : ReservedBytes) (p : List Byte) : (wire c p).length = frameLen c p := by
  rw [wire_eq, frameLen_eq, ← escaped_length]
  simp

theorem frameLen_bounds (c : ReservedBytes) (p : List Byte) :
    p.length + 3 ≤ frameLen c p ∧ frameLen c p ≤ 2 * p.length + 4 := by
  have hlow := List.card_nsmul_le_sum ((p ++ [crcCalc p]).map (escapedLen c)) 1
    (List.forall_mem_map.2 fun b _ => (escapedLen_bounds c b).1)
  have hhigh := List.sum_le_card_nsmul ((p ++ [crcCalc p]).map (escapedLen c)) 2
    (List.forall_mem_map.2 fun b _ => (escapedLen_bounds c b).2)
  rw [← Nat.add_le_add_iff_right (n := 2), ← frameLen_eq] at hlow hhigh
  simp only [List.length_map, List.length_append, List.length_singleton, smul_eq_mul] at hlow hhigh
  omega

/-- A frame whose payload and checksum all have the same escaped length. -/
theorem frameLen_eq_of_forall {c : ReservedBytes} {p : List Byte} {n : Nat}
    (h : ∀ b ∈ p ++ [crcCalc p], escapedLen c b = n) : frameLen c p = (p.length + 1) * n + 2 := by
  have hsum := List.sum_eq_card_nsmul ((p ++ [crcCalc p]).map (escapedLen c)) n (List.forall_mem_map.2 h)
  rw [frameLen_eq, hsum]
  simp

theorem wire_nil_of_not_reserved {c : ReservedBytes} (hd : 0x00 ≠ c.delim) (he : 0x00 ≠ c.esc) :
    wire c [] = [c.delim, 0x00, c.delim] := by
  rw [wire_eq, List.nil_append, escaped_singleton]
  exact congrArg (fun w => c.delim :: (w ++ [c.delim])) (escape_other c hd he)

theorem frameLen_nil (c : ReservedBytes) : frameLen c [] = escapedLen c 0x00 + 2 := frameLen_eq c []

/-- Settles O28: the length is the sum of the escaped lengths of payload and checksum, each 1 or 2, and the
delimiters. -/
theorem frameLengthAndBounds : Obligations.FrameLengthAndBounds := by
  intro c p
  obtain ⟨hlow, hhigh⟩ := frameLen_bounds c p
  refine ⟨wire_length c p, hlow, hhigh, fun h => ?_, fun h => ?_, wire_nil_of_not_reserved, fun h => ?_, rfl⟩
  · rw [frameLen_eq_of_forall fun b hb => escapedLen_other (h b hb).1 (h b hb).2]
    omega
  · rw [frameLen_eq_of_forall fun b hb => escapedLen_reserved (h b hb)]
    omega
  · rw [wire_length, frameLen_nil, escapedLen_reserved h]

/-! ### The function `encode` -/

theorem encodeFrame_ok {c : ReservedBytes} {p : List Byte} {cap : Nat} (h : frameLen c p ≤ cap) :
    encodeFrame c p cap = .ok (wire c p) :=
  if_pos (wire_length c p ▸ h)

theorem encodeFrame_error {c : ReservedBytes} {p : List Byte} {cap : Nat} (h : cap < frameLen c p) :
    encodeFrame c p cap = .error .capacityExceeded :=
  if_neg (wire_length c p ▸ not_le.2 h)

/-- A capacity of 3 holds the frame of the empty payload with a one-byte checksum, and no other. -/
theorem frameLen_le_three_iff (c : ReservedBytes) (p : List Byte) :
    frameLen c p ≤ 3 ↔ p = [] ∧ 0x00 ≠ c.delim ∧ 0x00 ≠ c.esc := by
  constructor
  · intro h
    obtain ⟨hlow, -⟩ := frameLen_bounds c p
    obtain rfl := List.length_eq_zero_iff.1 (by omega : p.length = 0)
    refine ⟨rfl, not_or.1 fun hreserved => ?_⟩
    rw [frameLen_nil, escapedLen_reserved hreserved] at h
    omega
  · rintro ⟨rfl, hd, he⟩
    rw [frameLen_nil, escapedLen_other hd he]

/-- Settles O29: `encode` succeeds exactly at the frame's length or more (`encodeFrame_ok`, `encodeFrame_error`), and
that length is bounded. -/
theorem encodeCapacityBoundary : Obligations.EncodeCapacityBoundary := by
  intro c p
  obtain ⟨hlow, hhigh⟩ := frameLen_bounds c p
  refine ⟨?_, ?_, fun cap h => encodeFrame_ok (by omega), fun cap h => encodeFrame_error (by omega), ?_⟩
  · exact encodeFrame_ok (wire_length c p).ge
  · exact encodeFrame_error (by rw [wire_length]; omega)
  · rw [← frameLen_le_three_iff]
    by_cases h : frameLen c p ≤ 3
    · exact iff_of_true (encodeFrame_ok h) h
    · exact iff_of_false (by rw [encodeFrame_error (not_le.1 h)]; nofun) h

end Sys2Proof.Machine
end

section
/-! SUPPORT. The loop `scan` (`42_decoder.md` R109) byte by byte. What it knows between two bytes is the bytes so far
and whether an escape is pending; the loop is a fold of the step on one byte (`scanByte`), closed by the test that no
escape is left (`scan_eq_foldlM`). A symbol of the wire format (`30_encoding.md` R48, rows 1 to 3) is then one
capacity-checked append, and so an escaped sequence appends the sequence. -/

namespace Sys2Proof.Machine

/-! ### The step on one byte -/

/-- The append of `scan`, with no escape pending after it. -/
def scanPush (cap : Nat) (u : List Byte) (v : Byte) : Except ErrorKind (List Byte × Bool) :=
  (push cap u v).map (·, false)

/-- One byte of `scan`, from the bytes so far and the pending escape. -/
def scanByte (c : ReservedBytes) (cap : Nat) : List Byte × Bool → Byte → Except ErrorKind (List Byte × Bool)
  | (u, true), b =>
    match continuation c b with
    | none => .error .malformedEscape
    | some v => scanPush cap u v
  | (u, false), b => if b = c.esc then .ok (u, true) else scanPush cap u b

/-- The end of `scan`: a pending escape is malformed. -/
def scanEnd : List Byte × Bool → Except ErrorKind (List Byte)
  | (_, true) => .error .malformedEscape
  | (u, false) => .ok u

theorem scanPush_room {cap : Nat} {u : List Byte} (v : Byte) (h : u.length ≠ cap) :
    scanPush cap u v = .ok (u ++ [v], false) := by
  rw [scanPush, push, if_neg h]
  rfl

theorem scanPush_full {cap : Nat} {u : List Byte} (v : Byte) (h : u.length = cap) :
    scanPush cap u v = .error .capacityExceeded := by
  rw [scanPush, push, if_pos h]
  rfl

theorem scanByte_recognised {c : ReservedBytes} {b v : Byte} (cap : Nat) (u : List Byte)
    (h : continuation c b = some v) : scanByte c cap (u, true) b = scanPush cap u v := by
  rw [scanByte, h]

theorem scanByte_unrecognised {c : ReservedBytes} {b : Byte} (cap : Nat) (u : List Byte) (h : continuation c b = none) :
    scanByte c cap (u, true) b = .error .malformedEscape := by
  rw [scanByte, h]

@[simp] theorem scanByte_esc (c : ReservedBytes) (cap : Nat) (u : List Byte) :
    scanByte c cap (u, false) c.esc = .ok (u, true) := if_pos rfl

theorem scanByte_other {c : ReservedBytes} {b : Byte} (cap : Nat) (u : List Byte) (h : b ≠ c.esc) :
    scanByte c cap (u, false) b = scanPush cap u b := if_neg h

/-- Everything the step can do. -/
theorem scanByte_cases (c : ReservedBytes) (cap : Nat) (u : List Byte) (pending : Bool) (b : Byte) :
    (pending = false ∧ b = c.esc ∧ scanByte c cap (u, pending) b = .ok (u, true)) ∨
      scanByte c cap (u, pending) b = .error .malformedEscape ∨
      ∃ v, scanByte c cap (u, pending) b = scanPush cap u v := by
  cases pending with
  | true =>
    cases h : continuation c b with
    | none => exact .inr (.inl (scanByte_unrecognised cap u h))
    | some v => exact .inr (.inr ⟨v, scanByte_recognised cap u h⟩)
  | false =>
    by_cases h : b = c.esc
    · exact .inl ⟨rfl, h, h ▸ scanByte_esc c cap u⟩
    · exact .inr (.inr ⟨b, scanByte_other cap u h⟩)

@[simp] theorem except_ok_bind {α β ε : Type} (a : α) (f : α → Except ε β) : (Except.ok a >>= f) = f a := rfl
@[simp] theorem except_error_bind {α β ε : Type} (e : ε) (f : α → Except ε β) : (Except.error e >>= f) = .error e := rfl

/-! ### The loop is the fold of the step -/

theorem scanFrom_eq_foldlM (c : ReservedBytes) (cap : Nat) (u f : List Byte) :
    scanFrom c cap u f = f.foldlM (scanByte c cap) (u, false) >>= scanEnd := by
  induction u, f using scanFrom.induct (c := c) (cap := cap) with
  | case1 u => rfl
  | case2 u => simp [scanFrom, scanEnd]
  | case3 u b hb =>
    rw [scanFrom, if_neg hb, List.foldlM_cons, scanByte_other cap u hb, scanPush]
    cases push cap u b <;> rfl
  | case4 u b' rest hv => simp [scanFrom, hv, scanByte_unrecognised cap u hv]
  | case5 u b' rest v hv e hpush => simp [scanFrom, hv, scanByte_recognised cap u hv, scanPush, hpush, Except.map]
  | case6 u b' rest v hv u' hpush ih =>
    simp [scanFrom, hv, scanByte_recognised cap u hv, scanPush, hpush, Except.map, ih]
  | case7 u b b' rest hb e hpush => simp [scanFrom, hb, scanByte_other cap u hb, scanPush, hpush, Except.map]
  | case8 u b b' rest hb u' hpush ih =>
    rw [scanFrom, if_neg hb, hpush, List.foldlM_cons, scanByte_other cap u hb, scanPush, hpush]
    exact ih

theorem scan_eq_foldlM (c : ReservedBytes) (f : List Byte) (cap : Nat) :
    scan c f cap = f.foldlM (scanByte c cap) ([], false) >>= scanEnd := scanFrom_eq_foldlM c cap [] f

/-- `decode` after a scan that gives some bytes (`42_decoder.md` R110). -/
theorem decodeFrame_of_scan {c : ReservedBytes} {f u : List Byte} {cap : Nat} (h : scan c f cap = .ok u) :
    decodeFrame c f cap = if u.length = 0 then .error .malformedEscape
      else if crcCalc u ≠ 0x00 then .error .checksumMismatch else .ok u.dropLast := by
  rw [decodeFrame, h]

theorem decodeFrame_of_scan_error {c : ReservedBytes} {f : List Byte} {cap : Nat} {e : ErrorKind}
    (h : scan c f cap = .error e) : decodeFrame c f cap = .error e := by
  rw [decodeFrame, h]

theorem decodeFrame_of_scan_verified {c : ReservedBytes} {f u : List Byte} {b : Byte} {cap : Nat}
    (h : scan c f cap = .ok (u ++ [b])) (hcrc : crcCalc (u ++ [b]) = 0x00) : decodeFrame c f cap = .ok u := by
  rw [decodeFrame_of_scan h, if_neg (by simp), if_neg (not_not.2 hcrc), List.dropLast_concat]

theorem decodeFrame_of_scan_mismatch {c : ReservedBytes} {f u : List Byte} {cap : Nat} (h : scan c f cap = .ok u)
    (hne : u ≠ []) (hcrc : crcCalc u ≠ 0x00) : decodeFrame c f cap = .error .checksumMismatch := by
  rw [decodeFrame_of_scan h, if_neg (by simpa using hne), if_pos hcrc]

/-! ### Symbols -/

/-- The recognised symbols of the wire and the byte each stands for (`30_encoding.md` R48, rows 1 to 3): a continuation
after `ESC`, or any byte but `ESC`. -/
inductive Symbol (c : ReservedBytes) : List Byte → Byte → Prop
  | plain (b : Byte) (h : b ≠ c.esc) : Symbol c [b] b
  | pair (k v : Byte) (h : continuation c k = some v) : Symbol c [c.esc, k] v

theorem symbol_escape (c : ReservedBytes) (b : Byte) : Symbol c (escape c b) b := by
  rcases escape_cases c b with ⟨rfl, e⟩ | ⟨rfl, e⟩ | ⟨-, hesc, e⟩ <;> rw [e]
  · exact .pair _ _ (continuation_escDelim c)
  · exact .pair _ _ (continuation_escEsc c)
  · exact .plain b hesc

/-- A symbol is one append. -/
theorem Symbol.foldlM {c : ReservedBytes} {w : List Byte} {v : Byte} (h : Symbol c w v) (cap : Nat) (u : List Byte) :
    w.foldlM (scanByte c cap) (u, false) = scanPush cap u v := by
  cases h with
  | plain _ hb => simp [scanByte_other cap u hb]
  | pair k _ hk => simp [scanByte_recognised cap u hk]

/-- Escaped bytes that fit are appended. -/
theorem foldlM_escaped_fits {c : ReservedBytes} {cap : Nat} {u : List Byte} (s : List Byte)
    (h : u.length + s.length ≤ cap) : (escaped c s).foldlM (scanByte c cap) (u, false) = .ok (u ++ s, false) := by
  induction s generalizing u with
  | nil => simp; rfl
  | cons b s ih =>
    rw [List.length_cons] at h
    rw [escaped_cons, List.foldlM_append, (symbol_escape c b).foldlM, scanPush_room b (by omega), except_ok_bind,
      ih (by simp; omega), List.append_assoc, List.singleton_append]

/-- Escaped bytes that do not all fit exceed the capacity. -/
theorem foldlM_escaped_overflow {c : ReservedBytes} {cap : Nat} {u : List Byte} (s : List Byte)
    (hu : u.length ≤ cap) (h : cap < u.length + s.length) :
    (escaped c s).foldlM (scanByte c cap) (u, false) = .error .capacityExceeded := by
  induction s generalizing u with
  | nil => simp at h; omega
  | cons b s ih =>
    rw [List.length_cons] at h
    rw [escaped_cons, List.foldlM_append, (symbol_escape c b).foldlM]
    by_cases hfull : u.length = cap
    · rw [scanPush_full b hfull, except_error_bind]
    · rw [scanPush_room b hfull, except_ok_bind, ih (by simp; omega) (by simp; omega)]

/-- An escaped sequence with one symbol of its own in the middle. -/
theorem scan_symbol_between {c : ReservedBytes} {w pre post : List Byte} {v : Byte} {cap : Nat} (hw : Symbol c w v)
    (h : (pre ++ v :: post).length ≤ cap) :
    scan c (escaped c pre ++ (w ++ escaped c post)) cap = .ok (pre ++ v :: post) := by
  rw [List.length_append, List.length_cons] at h
  rw [scan_eq_foldlM, List.foldlM_append, foldlM_escaped_fits pre (by simp; omega), except_ok_bind, List.foldlM_append,
    hw.foldlM, scanPush_room v (by simp; omega), except_ok_bind, foldlM_escaped_fits post (by simp; omega),
    except_ok_bind, scanEnd]
  simp

theorem scan_escaped_fits {c : ReservedBytes} {s : List Byte} {cap : Nat} (h : s.length ≤ cap) :
    scan c (escaped c s) cap = .ok s := by
  rw [scan_eq_foldlM, foldlM_escaped_fits s (by simpa using h)]
  rfl

theorem scan_escaped_overflow {c : ReservedBytes} {s : List Byte} {cap : Nat} (h : cap < s.length) :
    scan c (escaped c s) cap = .error .capacityExceeded := by
  rw [scan_eq_foldlM, foldlM_escaped_overflow s (Nat.zero_le cap) (by simpa using h)]
  rfl

/-! ### Round trip, corruption, framing mistakes -/

/-- Settles O46: the scan of the stripped frame is the payload with its checksum, which verifies. -/
theorem decodeOfEncodeIsThePayload : Obligations.DecodeOfEncodeIsThePayload := by
  intro c p cap
  rw [stripDelimiters_wire]
  refine ⟨fun h => ?_, fun h => ?_⟩
  · exact decodeFrame_of_scan_verified (scan_escaped_fits (by simpa using h)) (crcCalc_append_crcCalc p)
  · exact decodeFrame_of_scan_error (scan_escaped_overflow (by simp; omega))

/-- A flip of a bit changes a byte. -/
theorem xor_bit_ne (x : Byte) {k : Nat} (hk : k < 8) : x ^^^ (1#8 <<< k) ≠ x := by
  intro h
  have hbit : (x ^^^ (1#8 <<< k)).getLsbD k = x.getLsbD k := by rw [h]
  simp [hk] at hbit

/-- A verified sequence that is read back with one byte changed does not verify. -/
theorem decodeFrame_changed_symbol {c : ReservedBytes} {p pre post w : List Byte} {x v : Byte} {cap : Nat}
    (hsplit : p ++ [crcCalc p] = pre ++ x :: post) (hw : Symbol c w v) (hne : x ≠ v) (hcap : p.length + 1 ≤ cap) :
    decodeFrame c (escaped c pre ++ (w ++ escaped c post)) cap = .error .checksumMismatch := by
  have hlen := congrArg List.length hsplit
  rw [List.length_append, List.length_singleton, List.length_append, List.length_cons] at hlen
  refine decodeFrame_of_scan_mismatch (scan_symbol_between hw ?_) (by simp)
    (crcCalc_ne_zero_of_changed (crcCalc_append_crcCalc p) hsplit hne)
  rw [List.length_append, List.length_cons]
  omega

/-- An unrecognised continuation is malformed when what comes before it fits. -/
theorem decodeFrame_unrecognised {c : ReservedBytes} {pre rest : List Byte} {k : Byte} {cap : Nat}
    (hk : continuation c k = none) (hcap : pre.length ≤ cap) :
    decodeFrame c (escaped c pre ++ c.esc :: k :: rest) cap = .error .malformedEscape := by
  refine decodeFrame_of_scan_error ?_
  rw [scan_eq_foldlM, List.foldlM_append, foldlM_escaped_fits pre (by simpa using hcap), except_ok_bind,
    List.foldlM_cons, scanByte_esc, except_ok_bind, List.foldlM_cons, scanByte_unrecognised _ _ hk]
  rfl

theorem continuation_eq_none_iff (c : ReservedBytes) (b : Byte) :
    continuation c b = none ↔ ¬(b = c.escDelim ∨ b = c.escEsc) := by
  refine ⟨?_, fun h => continuation_other c (fun hD => h (.inl hD)) fun hE => h (.inr hE)⟩
  rintro h (rfl | rfl)
  · simp at h
  · simp at h

/-- A recognised continuation is the one of the byte it is read as. -/
theorem escape_of_continuation {c : ReservedBytes} {x k : Byte} (h : continuation c k = some x) :
    escape c x = [c.esc, k] := by
  rcases not_not.1 (mt (continuation_eq_none_iff c k).2 (by simp [h])) with rfl | rfl
  · rw [continuation_escDelim, Option.some.injEq] at h
    rw [← h, escape_delim]
  · rw [continuation_escEsc, Option.some.injEq] at h
    rw [← h, escape_esc]

/-- Another recognised continuation is read as another byte. -/
theorem continuation_ne {c : ReservedBytes} {x v y k : Byte} (hx : escape c x = [c.esc, y])
    (hv : continuation c k = some v) (hne : k ≠ y) : x ≠ v := by
  rintro rfl
  exact hne (by simpa using (escape_of_continuation hv).symm.trans hx)

set_option maxRecDepth 2000 in
/-- Settles O48: (a) and the first case of (b) put another byte in the place of one (`decodeFrame_changed_symbol`); the
second case of (b) is an unrecognised continuation; (c) is evaluated. -/
theorem oneFlippedBit : Obligations.OneFlippedBit := by
  refine ⟨fun c p pre post x k cap hsplit hd he hk hesc hcap => ⟨?_, ?_⟩,
    fun c p pre post x y k cap hsplit hpair hk hcap => ⟨?_, ?_⟩, by decide, by decide, rfl⟩
  · rw [stripDelimiters_wire, hsplit, escaped_append, escaped_cons, escape_other c hd he, List.singleton_append]
  · exact decodeFrame_changed_symbol hsplit (.plain _ hesc) (xor_bit_ne x hk).symm hcap
  · rw [stripDelimiters_wire, hsplit, escaped_append, escaped_cons, hpair]
    rfl
  · split
    · next hcont =>
      obtain ⟨v, hv⟩ := Option.ne_none_iff_exists'.1 (mt (continuation_eq_none_iff c _).1 (not_not.2 hcont))
      exact decodeFrame_changed_symbol hsplit (.pair _ v hv) (continuation_ne hpair hv (xor_bit_ne y hk)) hcap
    · next hcont =>
      have hlen := congrArg List.length hsplit
      rw [List.length_append, List.length_singleton, List.length_append, List.length_cons] at hlen
      exact decodeFrame_unrecognised ((continuation_eq_none_iff c _).2 hcont) (by omega)

/-- Settles O49: the scan of the joined frames is the two payloads with their checksums, each of which clears the
register; with `DELIM` 0x00 the delimiters are read as 0x00 bytes, which do not change a cleared register. -/
theorem joinedFramesVerify : Obligations.JoinedFramesVerify := by
  refine ⟨fun c p1 p2 cap h => ?_, fun c p cap hd h => ?_⟩
  · rw [stripDelimiters_wire, stripDelimiters_wire, ← escaped_append, ← List.append_assoc]
    refine decodeFrame_of_scan_verified (scan_escaped_fits (by simp; omega)) ?_
    rw [List.append_assoc, crcCalc_append, crcCalc_append_crcCalc]
    exact crcCalc_append_crcCalc p2
  · have hdelim : Symbol c [c.delim] 0x00 := hd ▸ .plain c.delim c.pairwise_ne.1
    have hscan : scan c (wire c p) cap = .ok (([0x00] ++ (p ++ [crcCalc p])) ++ [0x00]) := by
      rw [wire_eq, scan_eq_foldlM, ← List.singleton_append, List.foldlM_append, hdelim.foldlM,
        scanPush_room _ (by simp; omega), except_ok_bind, List.foldlM_append, foldlM_escaped_fits _ (by simp; omega),
        except_ok_bind, hdelim.foldlM, scanPush_room _ (by simp; omega)]
      rfl
    rw [decodeFrame_of_scan_verified hscan ?_, List.append_assoc]
    rw [crcCalc_concat, List.singleton_append, crcCalc_zero_cons, crcCalc_append_crcCalc, crcByte_self]

/-- From the bytes so far, `scan` appends at most one byte for each it reads, so with room for all of them it does not
exceed the capacity. -/
theorem foldlM_scanByte_bounded (c : ReservedBytes) {cap : Nat} (f : List Byte) {u : List Byte} (pending : Bool)
    (h : u.length + f.length ≤ cap) :
    f.foldlM (scanByte c cap) (u, pending) = .error .malformedEscape ∨
      ∃ u' pending', f.foldlM (scanByte c cap) (u, pending) = .ok (u', pending') ∧ u'.length ≤ u.length + f.length := by
  induction f generalizing u pending with
  | nil => exact .inr ⟨u, pending, rfl, le_rfl⟩
  | cons b f ih =>
    rw [List.length_cons] at h ⊢
    have hgo (u₁ : List Byte) (pending₁ : Bool) (hstep : scanByte c cap (u, pending) b = .ok (u₁, pending₁))
        (hlen : u₁.length ≤ u.length + 1) :
        (b :: f).foldlM (scanByte c cap) (u, pending) = .error .malformedEscape ∨
          ∃ u' pending', (b :: f).foldlM (scanByte c cap) (u, pending) = .ok (u', pending') ∧
            u'.length ≤ u.length + (f.length + 1) := by
      rw [List.foldlM_cons, hstep, except_ok_bind]
      rcases ih (u := u₁) pending₁ (by omega) with h | ⟨u', pending', h, hle⟩
      · exact .inl h
      · exact .inr ⟨u', pending', h, by omega⟩
    rcases scanByte_cases c cap u pending b with ⟨-, -, e⟩ | e | ⟨v, e⟩
    · exact hgo u true e (by omega)
    · exact .inl (by rw [List.foldlM_cons, e]; rfl)
    · exact hgo (u ++ [v]) false (e.trans (scanPush_room v (by omega))) (by simp)

theorem scan_bounded (c : ReservedBytes) {f : List Byte} {cap : Nat} (h : f.length ≤ cap) :
    scan c f cap = .error .malformedEscape ∨ ∃ u, scan c f cap = .ok u ∧ u.length ≤ f.length := by
  rw [scan_eq_foldlM]
  rcases foldlM_scanByte_bounded c f (u := []) false (by simpa using h) with e | ⟨u, pending, e, hle⟩ <;> rw [e]
  · exact .inl rfl
  · cases pending with
    | true => exact .inl rfl
    | false => exact .inr ⟨u, rfl, by simpa using hle⟩

/-- Settles O50: `scan_bounded`; the tests after the scan give other errors. -/
theorem decodeCapacitySuffices : Obligations.DecodeCapacitySuffices := by
  intro c f cap h
  rcases scan_bounded c h with e | ⟨u, e, hle⟩
  · refine ⟨by rw [decodeFrame_of_scan_error e]; nofun, fun u hu => ?_⟩
    cases e.symm.trans hu
  · refine ⟨?_, fun u' hu' => ?_⟩
    · rw [decodeFrame_of_scan e]
      split
      · nofun
      · split <;> nofun
    · obtain rfl := Except.ok.inj (e.symm.trans hu')
      exact hle

end Sys2Proof.Machine
end

section
/-! SUPPORT. What the host observes (`10_state.md` R20, R22; `20_memory.md` R33): the length register and the cells
below it for a unit in `DONE`, and free values elsewhere. -/

namespace Sys2Proof.Machine

/-- A unit holds a sequence: its length register is the sequence's length, and the cells below it are its bytes. -/
structure FrameUnit.Holds (w : List Byte) (u : FrameUnit) : Prop where
  len : u.len.toNat = w.length
  cells : ∀ k, k < w.length → Memory.read u.buf k = w[k]?

@[simp] theorem observe_encLen (s : State) : (observe s).encLen = s.lenOutput .out := rfl
@[simp] theorem observe_decLen (s : State) : (observe s).decLen = s.lenOutput .msg := rfl

theorem State.lenOutput_of_done {s : State} {sp : Space} (h : (s.frameUnit sp).state = .done) :
    s.lenOutput sp = (s.frameUnit sp).len := by
  rw [State.lenOutput, h]

/-- The length output depends on the unit's state, on its length register in `DONE` and `IDLE`, and on the draw
counter. -/
theorem State.lenOutput_congr {s s' : State} {sp : Space} (hdraws : s.draws = s'.draws)
    (hstate : (s.frameUnit sp).state = (s'.frameUnit sp).state)
    (hlen : (s.frameUnit sp).state = .done ∨ (s.frameUnit sp).state = .idle →
      (s.frameUnit sp).len = (s'.frameUnit sp).len) : s.lenOutput sp = s'.lenOutput sp := by
  unfold State.lenOutput
  rw [← hstate, hdraws]
  cases hs : (s.frameUnit sp).state with
  | idle => exact hlen (.inr hs)
  | body => rfl
  | done => exact hlen (.inl hs)
  | err => rfl

/-- Below the length of a unit in `DONE` a cell shows its stored byte (`20_memory.md` R33). -/
theorem State.cellValue_of_read {s : State} {sp : Space} {i : Cap} {b : Byte} (hdone : (s.frameUnit sp).state = .done)
    (hi : i.toNat < (s.frameUnit sp).len.toNat) (hread : Memory.read (s.frameUnit sp).buf i.toNat = some b) :
    s.cellValue sp i = b := by
  rw [State.cellValue, if_pos ⟨hdone, BitVec.lt_def.2 hi⟩, hread, Option.getD_some]

/-- What a cell shows depends on the unit's state, on the length and the cells below it in `DONE`, and on the draw
counter. -/
theorem State.cellValue_congr {s s' : State} {sp : Space} (i : Cap) (hdraws : s.draws = s'.draws)
    (hstate : (s.frameUnit sp).state = (s'.frameUnit sp).state)
    (hlen : (s.frameUnit sp).state = .done → (s.frameUnit sp).len = (s'.frameUnit sp).len)
    (hcells : (s.frameUnit sp).state = .done → ∀ k, k < (s.frameUnit sp).len.toNat →
      Memory.read (s.frameUnit sp).buf k = Memory.read (s'.frameUnit sp).buf k) :
    s.cellValue sp i = s'.cellValue sp i := by
  by_cases hdone : (s.frameUnit sp).state = .done
  · unfold State.cellValue
    rw [← hstate, ← hlen hdone, ← hdraws]
    split
    · next h => rw [hcells hdone i.toNat (BitVec.lt_def.1 h.2)]
    · rfl
  · rw [State.cellValue_of_not_done i hdone, State.cellValue_of_not_done i (hstate ▸ hdone), hdraws]

theorem hostRead_of_lt {s : State} {sp : Space} {i : Cap} (h : i.toNat < s.cfg.size sp) :
    hostRead s sp i = .ok (s.cellValue sp i) := if_pos h

theorem hostRead_of_ge {s : State} {sp : Space} {i : Cap} (h : s.cfg.size sp ≤ i.toNat) :
    hostRead s sp i = .error (.noSuchCell sp i.toNat) := if_neg (not_lt.2 h)

/-- The host reads what a unit in `DONE` holds (`20_memory.md` R37). -/
theorem hostReadRange_of_holds {s : State} {sp : Space} {w : List Byte} (hdone : (s.frameUnit sp).state = .done)
    (hw : (s.frameUnit sp).Holds w) : hostReadRange s sp w.length = w := by
  have hlen := (s.frameUnit sp).len.isLt
  rw [hw.len] at hlen
  refine List.ext_getElem (by simp [hostReadRange]) fun k hk hk' => ?_
  have hk16 : (BitVec.ofNat 16 k).toNat = k := Nat.mod_eq_of_lt (hk'.trans hlen)
  simp only [hostReadRange, List.getElem_map, List.getElem_range]
  refine State.cellValue_of_read hdone ?_ ?_
  · rw [hk16, hw.len]
    exact hk'
  · rw [hk16, hw.cells k hk', List.getElem?_eq_getElem hk']

/-- Settles O55: in `DONE` a length output is the register (`lenOutput_of_done`); the others are registers throughout.
-/
theorem outputsShowTheRegisters : Obligations.OutputsShowTheRegisters := fun s =>
  ⟨rfl, crcZero_eq_true_iff s.crc, rfl, rfl, rfl, rfl, State.lenOutput_of_done (sp := .out),
    State.lenOutput_of_done (sp := .msg)⟩

/-- Settles O56: the outputs and the cells depend on nothing else (`lenOutput_congr`, `cellValue_congr`). -/
theorem hiddenStateIsHidden : Obligations.HiddenStateIsHidden := by
  intro s s' hcfg hdraws hcrc hunits
  have hlenOutput (sp : Space) : s.lenOutput sp = s'.lenOutput sp := by
    obtain ⟨hstate, -, hlen, -⟩ := hunits sp
    exact State.lenOutput_congr hdraws hstate hlen
  constructor
  · obtain ⟨hestate, heerr, -⟩ := hunits .out
    obtain ⟨hdstate, hderr, -⟩ := hunits .msg
    simp only [State.frameUnit] at hestate heerr hdstate hderr
    simp only [observe, hlenOutput, hcrc, hestate, heerr, hdstate, hderr]
  · intro sp i
    obtain ⟨hstate, -, hlen, hcells⟩ := hunits sp
    rw [hostRead, hostRead, hcfg, State.cellValue_congr i hdraws hstate (fun h => hlen (.inl h)) hcells]

/-- Settles O57: the one test of `hostRead`, and `cellValue_of_read`. -/
theorem hostReadsExistingCells : Obligations.HostReadsExistingCells := by
  refine fun s sp i => ⟨⟨?_, fun h => ⟨_, hostRead_of_lt h⟩⟩, hostRead_of_ge, fun b hi hdone hlen hread => ?_⟩
  · rintro ⟨b, hb⟩
    by_contra h
    cases (hostRead_of_ge (not_lt.1 h)).symm.trans hb
  · rw [hostRead_of_lt hi, State.cellValue_of_read hdone hlen hread]

end Sys2Proof.Machine
end

section
/-! SUPPORT. Command sequences (`20_memory.md` R41). Whatever every command keeps, a sequence keeps (`execAll_induct`);
for one unit it is enough to look at the effects on that unit (`execAll_enc_induct`, `execAll_dec_induct`). -/

namespace Sys2Proof.Machine

theorem execAll_cons_eq_next {i : Instr} {is : List Instr} {s t : State} (h : execAll (i :: is) s = .next t) :
    ∃ a, exec i s = .next a ∧ execAll is a = .next t := by
  rw [execAll] at h
  split at h
  · next a hexec => exact ⟨a, hexec, h⟩
  · cases h
  · cases h

theorem execAll_append_eq_next {is js : List Instr} {s t : State} (h : execAll (is ++ js) s = .next t) :
    ∃ a, execAll is s = .next a ∧ execAll js a = .next t := by
  induction is generalizing s with
  | nil => exact ⟨s, rfl, h⟩
  | cons i is ih =>
    obtain ⟨b, hexec, hrest⟩ := execAll_cons_eq_next h
    obtain ⟨a, his, hjs⟩ := ih hrest
    exact ⟨a, (execAll_cons_of_next hexec is).trans his, hjs⟩

theorem execAll_singleton_eq_next {i : Instr} {s t : State} (h : execAll [i] s = .next t) : exec i s = .next t := by
  obtain ⟨a, hexec, hnil⟩ := execAll_cons_eq_next h
  cases hnil
  exact hexec

/-- A sequence of well-formed commands completes. -/
theorem execAll_of_wellFormed {is : List Instr} {s : State} (h : ∀ i ∈ is, i.wellFormed s.cfg = true) :
    ∃ t, execAll is s = .next t := by
  induction is generalizing s with
  | nil => exact ⟨s, rfl⟩
  | cons i is ih =>
    obtain ⟨hi, his⟩ := List.forall_mem_cons.1 h
    obtain ⟨a, hexec⟩ := (exec_next_iff_wellFormed i s).2 hi
    obtain ⟨hcfg, -⟩ := exec_frame hexec
    rw [execAll_cons_of_next hexec]
    exact ih (hcfg ▸ his)

/-- Induction along a run, over the commands performed so far. -/
theorem execAll_induct {P : List Instr → State → Prop} {is : List Instr} {s t : State} (h : execAll is s = .next t)
    (hstart : P [] s)
    (hstep : ∀ done i a b, i ∈ is → a.cfg = s.cfg → P done a → exec i a = .next b → P (done ++ [i]) b) : P is t := by
  induction is generalizing s P with
  | nil =>
    cases h
    exact hstart
  | cons i is ih =>
    obtain ⟨a, hexec, hrest⟩ := execAll_cons_eq_next h
    obtain ⟨hcfg, -⟩ := exec_frame hexec
    refine ih (P := fun done => P (i :: done)) hrest (hstep [] i s a List.mem_cons_self rfl hstart hexec) ?_
    exact fun done j a' b' hj hcfg' => hstep (i :: done) j a' b' (List.mem_cons_of_mem i hj) (hcfg'.trans hcfg)

theorem execAll_enc_induct {P : List Instr → FrameUnit → Prop} {is : List Instr} {s t : State}
    (h : execAll is s = .next t) (hstart : P [] s.enc)
    (hstep : ∀ done i u u', i ∈ is → P done u → EncEffect s.cfg u i u' → P (done ++ [i]) u') : P is t.enc :=
  execAll_induct (P := fun done a => P done a.enc) h hstart fun done i _ _ hi hcfg hP hexec =>
    hstep done i _ _ hi hP (hcfg ▸ exec_encEffect hexec)

theorem execAll_dec_induct {P : List Instr → FrameUnit → Bool → Prop} {is : List Instr} {s t : State}
    (h : execAll is s = .next t) (hstart : P [] s.dec s.decEsc)
    (hstep : ∀ done i u u' pending pending', i ∈ is → P done u pending → DecEffect s.cfg u pending i u' pending' →
      P (done ++ [i]) u' pending') : P is t.dec t.decEsc :=
  execAll_induct (P := fun done a => P done a.dec a.decEsc) h hstart fun done i _ _ hi hcfg hP hexec =>
    hstep done i _ _ _ _ hi hP (hcfg ▸ exec_decEffect hexec)

/-- Commands to one unit leave the others. -/
theorem execAll_sameUnit {is : List Instr} {s t : State} {k : Component} (h : execAll is s = .next t)
    (his : ∀ i ∈ is, i.component ≠ k) : t.SameUnit s k := by
  refine execAll_induct (P := fun _ a => a.SameUnit s k) h ?_ fun _ i _ _ hi _ hP hexec => ?_
  · cases k <;> simp
  · exact (exec_sameUnit_of_ne hexec (his i hi).symm).trans hP

/-- Commands to ENC change nothing but ENC. -/
theorem execAll_enc_frame {is : List Instr} {s t : State} (h : execAll is s = .next t)
    (his : ∀ i ∈ is, i.component = .enc) : t = { s with enc := t.enc } := by
  obtain ⟨hcfg, hport, hdraws⟩ := execAll_host h
  refine State.eq_of_sameUnit hcfg hport hdraws fun k => ?_
  cases k with
  | crc => exact (execAll_sameUnit h fun i hi => by simp [his i hi] : t.SameUnit s .crc)
  | enc => exact rfl
  | dec => exact (execAll_sameUnit h fun i hi => by simp [his i hi] : t.SameUnit s .dec)

/-- Commands to DEC change nothing but DEC and `dec_esc`. -/
theorem execAll_dec_frame {is : List Instr} {s t : State} (h : execAll is s = .next t)
    (his : ∀ i ∈ is, i.component = .dec) : t = { s with dec := t.dec, decEsc := t.decEsc } := by
  obtain ⟨hcfg, hport, hdraws⟩ := execAll_host h
  refine State.eq_of_sameUnit hcfg hport hdraws fun k => ?_
  cases k with
  | crc => exact (execAll_sameUnit h fun i hi => by simp [his i hi] : t.SameUnit s .crc)
  | enc => exact (execAll_sameUnit h fun i hi => by simp [his i hi] : t.SameUnit s .enc)
  | dec => exact ⟨rfl, rfl⟩

end Sys2Proof.Machine
end

section
/-! SUPPORT. A frame in progress and the capacity, for ENC and DEC alike: the writes of a frame stay below its capacity
(`FrameUnit.Within`), and in `BODY` the unit holds what has been written so far (`FrameUnit.InFrame`). -/

namespace Sys2Proof.Machine

/-! ### Below the capacity -/

/-- The unit works under the capacity `cap`, and the cells at or beyond it are those of `m`. -/
structure FrameUnit.Within (cap : Cap) (m : Memory) (u : FrameUnit) : Prop where
  cap_eq : u.cap = cap
  len_le : u.len.toNat ≤ cap.toNat
  cells : ∀ a, cap.toNat ≤ a → Memory.read u.buf a = Memory.read m a

theorem FrameUnit.Within.begin (cap : Cap) (u : FrameUnit) : (u.begin cap).Within cap u.buf where
  cap_eq := rfl
  len_le := Nat.zero_le _
  cells _ _ := rfl

/-- An update that keeps the capacity and the buffer and does not raise the length. -/
theorem FrameUnit.Within.of_same_buf {cap : Cap} {m : Memory} {u u' : FrameUnit} (h : u.Within cap m)
    (hcap : u'.cap = u.cap) (hlen : u'.len.toNat ≤ u.len.toNat) (hbuf : u'.buf = u.buf) : u'.Within cap m where
  cap_eq := hcap.trans h.cap_eq
  len_le := hlen.trans h.len_le
  cells := hbuf ▸ h.cells

theorem FrameUnit.Within.store {cap : Cap} {m : Memory} {u : FrameUnit} (v : Byte) (h : u.Within cap m)
    (hroom : u.len ≠ u.cap) : (u.store v).Within cap m := by
  obtain ⟨rfl, hlen, hcells⟩ := h
  have hlt : u.len.toNat < u.cap.toNat := lt_of_le_of_ne hlen fun e => hroom (FrameUnit.len_eq_cap e)
  refine ⟨rfl, (FrameUnit.store_len_toNat v hlt).trans_le hlt, fun a ha => ?_⟩
  rw [FrameUnit.store_buf, Memory.read_write_other _ v (by omega), hcells a ha]

theorem FrameUnit.Within.encEmitAll {cap : Cap} {m : Memory} {u : FrameUnit} (vs : List Byte) (h : u.Within cap m) :
    (u.encEmitAll vs).Within cap m := by
  obtain ⟨rfl, hlen, hcells⟩ := h
  obtain ⟨hcap, -, hlen', hother⟩ := FrameUnit.encEmitAll_frame vs hlen
  exact ⟨hcap, hlen', fun a ha => (hother a (.inr (.inl ha))).trans (hcells a ha)⟩

theorem FrameUnit.inBody_finish_len (u : FrameUnit) : (u.inBody FrameUnit.finish).len = u.len := by
  unfold FrameUnit.inBody
  split <;> rfl

theorem FrameUnit.inBody_finish_buf (u : FrameUnit) : (u.inBody FrameUnit.finish).buf = u.buf := by
  unfold FrameUnit.inBody
  split <;> rfl

theorem FrameUnit.Within.decEmit {cap : Cap} {m : Memory} {u : FrameUnit} (v : Byte) (h : u.Within cap m) :
    (u.decEmit v).Within cap m := by
  rcases u.decEmit_cases v with e | ⟨-, -, e⟩ | ⟨-, hroom, e⟩ <;> rw [e]
  · exact h
  · exact h.of_same_buf rfl le_rfl rfl
  · exact (h.store v hroom).of_same_buf rfl le_rfl rfl

theorem FrameUnit.Within.decTake {cap : Cap} {m : Memory} {u : FrameUnit} (c : ReservedBytes) (pending : Bool)
    (b : Byte) (h : u.Within cap m) : (u.decTake c pending b).Within cap m := by
  rcases u.decTake_cases c pending b with e | e | ⟨v, e⟩ <;> rw [e]
  · exact h
  · exact h.of_same_buf rfl le_rfl rfl
  · exact h.decEmit v

theorem FrameUnit.Within.decFinish {cap : Cap} {m : Memory} {u : FrameUnit} (pending : Bool) (h : u.Within cap m) :
    (u.decFinish pending).Within cap m := by
  rcases u.decFinish_cases pending with e | ⟨-, -, -, e⟩ | ⟨-, hl, -, e⟩ <;> rw [e]
  · exact h.of_same_buf rfl le_rfl rfl
  · exact h.of_same_buf rfl le_rfl rfl
  · exact h.of_same_buf rfl (by rw [← FrameUnit.dropTrailer_len_toNat hl]; exact Nat.le_succ _) rfl

theorem EncEffect.within {c : Config} {u u' : FrameUnit} {i : Instr} {cap : Cap} {m : Memory} (h : EncEffect c u i u')
    (hi : startsEnc i = false) (hw : u.Within cap m) : u'.Within cap m := by
  cases h with
  | nothing => exact hw
  | start => cases hi
  | put b => exact (hw.of_same_buf (u' := u.accumulate b) rfl le_rfl rfl).encEmitAll _
  | finish =>
    exact (hw.encEmitAll _).of_same_buf (FrameUnit.inBody_finish_cap _) (by rw [FrameUnit.inBody_finish_len])
      (FrameUnit.inBody_finish_buf _)

theorem DecEffect.within {c : Config} {u u' : FrameUnit} {pending pending' : Bool} {i : Instr} {cap : Cap} {m : Memory}
    (h : DecEffect c u pending i u' pending') (hi : startsDec i = false) (hw : u.Within cap m) : u'.Within cap m := by
  cases h with
  | nothing => exact hw
  | start => cases hi
  | put b => exact hw.decTake _ _ b
  | finish => exact hw.decFinish _

/-- Settles O35: the capacity bounds the writes from `START` on (`Within.begin`) and under every later command
(`EncEffect.within`). -/
theorem encNeverWritesPastTheCapacity : Obligations.EncNeverWritesPastTheCapacity := by
  intro cap cs s t hcs h
  obtain ⟨a, hstart, hrest⟩ := execAll_cons_eq_next h
  obtain ⟨-, rfl⟩ := exec_encStart_eq_next_iff.1 hstart
  have hwithin : t.enc.Within cap s.enc.buf :=
    execAll_enc_induct (P := fun _ u => u.Within cap s.enc.buf) hrest
      ((FrameUnit.Within.begin cap s.enc).encEmitAll [_]) fun _ i _ _ hi hw heff => heff.within (hcs i hi) hw
  exact hwithin.cells

/-- Settles O43: as for ENC, with `DecEffect.within`. -/
theorem decNeverWritesPastTheCapacity : Obligations.DecNeverWritesPastTheCapacity := by
  intro cap cs s t hcs h
  obtain ⟨a, hstart, hrest⟩ := execAll_cons_eq_next h
  obtain ⟨-, rfl⟩ := exec_decStart_eq_next_iff.1 hstart
  have hwithin : t.dec.Within cap s.dec.buf :=
    execAll_dec_induct (P := fun _ u _ => u.Within cap s.dec.buf) hrest (FrameUnit.Within.begin cap s.dec)
      fun _ i _ _ _ _ hi hw heff => heff.within (hcs i hi) hw
  exact hwithin.cells

/-! ### What is written so far -/

/-- A run of writes that fits appends its bytes to what the unit holds. -/
theorem FrameUnit.Holds.storeAll {w : List Byte} {u : FrameUnit} (vs : List Byte) (h : u.Holds w)
    (hfits : u.len.toNat + vs.length ≤ u.cap.toNat) : (u.storeAll vs).Holds (w ++ vs) where
  len := by rw [FrameUnit.storeAll_len_toNat vs hfits, h.len, List.length_append]
  cells k hk := by
    rw [List.length_append] at hk
    by_cases hlow : k < w.length
    · rw [FrameUnit.read_storeAll_other u (.inl (h.len ▸ hlow)), h.cells k hlow, List.getElem?_append_left hlow]
    · obtain ⟨j, rfl⟩ := Nat.exists_eq_add_of_le (not_lt.1 hlow)
      rw [List.getElem?_append_right (Nat.le_add_right _ _), Nat.add_sub_cancel_left, ← h.len,
        FrameUnit.read_storeAll_written u (by omega)]

/-- What a unit holds depends on its length and its buffer only. -/
theorem FrameUnit.Holds.congr {w : List Byte} {u u' : FrameUnit} (h : u.Holds w) (hlen : u'.len = u.len)
    (hbuf : u'.buf = u.buf) : u'.Holds w where
  len := hlen ▸ h.len
  cells := hbuf ▸ h.cells

theorem FrameUnit.Holds.nil {u : FrameUnit} (h : u.len = 0) : u.Holds [] where
  len := by rw [h]; rfl
  cells := nofun

theorem FrameUnit.Holds.store {w : List Byte} {u : FrameUnit} (v : Byte) (h : u.Holds w)
    (hroom : u.len.toNat < u.cap.toNat) : (u.store v).Holds (w ++ [v]) := by
  have e : u.store v = u.storeAll [v] := by rw [← FrameUnit.store_storeAll v [] hroom, FrameUnit.storeAll_nil]
  rw [e]
  exact h.storeAll [v] hroom

/-- A unit in `BODY` under the capacity `cap`: its running CRC is that of the bytes `q`, and it holds `w`. -/
structure FrameUnit.InFrame (cap : Cap) (q w : List Byte) (u : FrameUnit) : Prop where
  state : u.state = .body
  err : u.err = .none
  cap_eq : u.cap = cap
  crc : u.crc = crcCalc q
  holds : u.Holds w
  fits : w.length ≤ cap.toNat

theorem FrameUnit.InFrame.begin (cap : Cap) (u : FrameUnit) : (u.begin cap).InFrame cap [] [] where
  state := rfl
  err := rfl
  cap_eq := rfl
  crc := rfl
  holds := .nil rfl
  fits := Nat.zero_le _

theorem FrameUnit.InFrame.accumulate {cap : Cap} {q w : List Byte} {u : FrameUnit} (b : Byte) (h : u.InFrame cap q w) :
    (u.accumulate b).InFrame cap (q ++ [b]) w where
  state := h.state
  err := h.err
  cap_eq := h.cap_eq
  crc := by rw [FrameUnit.accumulate_crc, h.crc, crcCalc_concat]
  holds := h.holds.congr rfl rfl
  fits := h.fits

/-- A unit in a frame is under its capacity. -/
theorem FrameUnit.InFrame.len_le_cap {cap : Cap} {q w : List Byte} {u : FrameUnit} (h : u.InFrame cap q w) :
    u.len.toNat ≤ u.cap.toNat := by
  rw [h.holds.len, h.cap_eq]
  exact h.fits

/-- A run of writes fits exactly when what is written so far and the run are within the capacity. -/
theorem FrameUnit.InFrame.fits_iff {cap : Cap} {q w : List Byte} {u : FrameUnit} (h : u.InFrame cap q w)
    (vs : List Byte) : u.len.toNat + vs.length ≤ u.cap.toNat ↔ (w ++ vs).length ≤ cap.toNat := by
  rw [h.holds.len, h.cap_eq, List.length_append]

theorem FrameUnit.InFrame.storeAll {cap : Cap} {q w : List Byte} {u : FrameUnit} (vs : List Byte)
    (h : u.InFrame cap q w) (hfits : (w ++ vs).length ≤ cap.toNat) : (u.storeAll vs).InFrame cap q (w ++ vs) where
  state := h.state
  err := h.err
  cap_eq := h.cap_eq
  crc := h.crc
  holds := h.holds.storeAll vs ((h.fits_iff vs).2 hfits)
  fits := hfits

end Sys2Proof.Machine
end

section
/-! SUPPORT. ENC over a whole transaction (`41_encoder.md` R87 to R91): in `BODY` it holds the delimiter and the escaped
bytes so far, and its only way to `ERR` is a run of writes that does not fit. -/

namespace Sys2Proof.Machine

/-- ENC in `BODY` after the bytes `q`: the delimiter and the escaped bytes are written. -/
abbrev FrameUnit.InEncFrame (c : ReservedBytes) (cap : Cap) (q : List Byte) (u : FrameUnit) : Prop :=
  u.InFrame cap q (c.delim :: escaped c q)

/-- `ENC.START` with a capacity for it writes the delimiter. -/
theorem FrameUnit.InFrame.encStart {cap : Cap} (c : ReservedBytes) (u : FrameUnit) (hcap : cap ≠ 0) :
    ((u.begin cap).encEmit c.delim).InEncFrame c cap [] := by
  have hpos : 1 ≤ cap.toNat := Nat.one_le_iff_ne_zero.2 fun e => hcap (BitVec.eq_of_toNat_eq e)
  have hrun : (u.begin cap).encEmit c.delim = (u.begin cap).storeAll [c.delim] :=
    FrameUnit.encEmitAll_fits (u := u.begin cap) [c.delim] rfl hpos
  rw [hrun]
  exact (FrameUnit.InFrame.begin cap u).storeAll [c.delim] hpos

theorem delim_escaped_concat (c : ReservedBytes) (q : List Byte) (b : Byte) :
    c.delim :: escaped c (q ++ [b]) = (c.delim :: escaped c q) ++ escape c b := by
  rw [escaped_append, escaped_singleton, List.cons_append]

/-- `ENC.PUT` of a byte that fits. -/
theorem FrameUnit.InFrame.encPut {cap : Cap} {c : ReservedBytes} {q : List Byte} {u : FrameUnit} (b : Byte)
    (h : u.InEncFrame c cap q) (hfits : (c.delim :: escaped c (q ++ [b])).length ≤ cap.toNat) :
    ((u.accumulate b).encEmitAll (escape c b)).InEncFrame c cap (q ++ [b]) := by
  rw [delim_escaped_concat] at hfits
  rw [FrameUnit.InEncFrame, delim_escaped_concat]
  have hacc := h.accumulate b
  rw [FrameUnit.encEmitAll_fits (u := u.accumulate b) _ h.state ((hacc.fits_iff _).2 hfits)]
  exact hacc.storeAll _ hfits

/-- `ENC.PUT` of a byte that does not fit. -/
theorem FrameUnit.InFrame.encPut_overflow {cap : Cap} {c : ReservedBytes} {q : List Byte} {u : FrameUnit} (b : Byte)
    (h : u.InEncFrame c cap q) (hover : cap.toNat < (c.delim :: escaped c (q ++ [b])).length) :
    ((u.accumulate b).encEmitAll (escape c b)).state = .err ∧
      ((u.accumulate b).encEmitAll (escape c b)).err = .capacityExceeded := by
  rw [delim_escaped_concat] at hover
  have hacc := h.accumulate b
  rw [FrameUnit.encEmitAll_overflow (u := u.accumulate b) _ h.state hacc.len_le_cap
    (not_le.1 (mt (hacc.fits_iff _).1 (not_le.2 hover)))]
  exact ⟨rfl, rfl⟩

/-- After `ENC.END` the unit is not in `BODY`. -/
theorem FrameUnit.inBody_finish_state_ne (u : FrameUnit) : (u.inBody FrameUnit.finish).state ≠ .body := by
  by_cases hb : u.state = .body
  · rw [FrameUnit.inBody_body hb]
    nofun
  · rwa [FrameUnit.inBody_not_body hb]

/-- What a command does to a frame in progress, as long as it stays in `BODY`. -/
theorem EncEffect.inFrame {c : Config} {u u' : FrameUnit} {i : Instr} {cap : Cap} {done : List Instr}
    (h : EncEffect c u i u') (hi : startsEnc i = false)
    (hu : u.state = .body → u.InEncFrame c.bytes cap (done.filterMap encPutByte))
    (hu' : u'.state = .body) :
    u'.InEncFrame c.bytes cap ((done ++ [i]).filterMap encPutByte) := by
  rw [List.filterMap_append]
  cases h with
  | nothing _ hnone =>
    rw [List.filterMap_cons_none (encPutByte_of_nothing hnone hu'), List.filterMap_nil, List.append_nil]
    exact hu hu'
  | start => cases hi
  | put b hb =>
    by_cases hfits : (c.bytes.delim :: escaped c.bytes (done.filterMap encPutByte ++ [b])).length ≤ cap.toNat
    · exact (hu hb).encPut b hfits
    · obtain ⟨hstate, -⟩ := (hu hb).encPut_overflow b (not_le.1 hfits)
      cases hstate.symm.trans hu'
  | finish => exact absurd hu' (FrameUnit.inBody_finish_state_ne _)

/-- Settles O36: `START` begins the frame, and every later command that stays in `BODY` carries it on
(`EncEffect.inFrame`). -/
theorem encBodyHoldsTheEscapedPrefix : Obligations.EncBodyHoldsTheEscapedPrefix := by
  intro cap cs s t hcs h hbody
  obtain ⟨a, hstart, hrest⟩ := execAll_cons_eq_next h
  obtain ⟨-, rfl⟩ := exec_encStart_eq_next_iff.1 hstart
  have hframe : t.enc.state = .body → t.enc.InEncFrame s.cfg.bytes cap (cs.filterMap encPutByte) := by
    refine execAll_enc_induct (P := fun done u => u.state = .body →
      u.InEncFrame s.cfg.bytes cap (done.filterMap encPutByte)) hrest (fun hb => ?_)
      fun done i u u' hi hP heff => heff.inFrame (hcs i hi) hP
    refine FrameUnit.InFrame.encStart s.cfg.bytes s.enc ?_
    rintro rfl
    rw [State.setEnc_enc, FrameUnit.begin_encEmit_zero] at hb
    cases hb
  obtain ⟨-, -, hcap, hcrc, ⟨hlen, hcells⟩, hfits⟩ := hframe hbody
  refine ⟨hcrc, ?_, fun k hk => hcells k (hlen ▸ hk), ?_, hcap⟩
  · rw [hlen, List.length_cons, Nat.add_comm]
  · rw [hlen, hcap]
    exact hfits

/-- What holds of every `PUT` and of the `END` holds of the commands after the `START` of a whole frame. -/
theorem forall_mem_map_concat {f : Byte → Instr} {e : Instr} {p : List Byte} {P : Instr → Prop} (hf : ∀ b, P (f b))
    (he : P e) : ∀ i ∈ p.map f ++ [e], P i := by
  intro i hi
  rcases List.mem_append.1 hi with hi | hi
  · obtain ⟨b, -, rfl⟩ := List.mem_map.1 hi
    exact hf b
  · exact List.mem_singleton.1 hi ▸ he

theorem filterMap_map_encPut (p : List Byte) : (p.map Instr.encPut).filterMap encPutByte = p := by
  rw [List.filterMap_map]
  exact List.filterMap_some

/-- ENC after `ENC.START cap` and the bytes `q`: the frame so far, or `ERR` when it has not fitted. -/
inductive FrameUnit.EncAfter (c : ReservedBytes) (cap : Cap) (q : List Byte) (u : FrameUnit) : Prop
  | body (h : u.InEncFrame c cap q)
  | err (hstate : u.state = .err) (herr : u.err = .capacityExceeded)
      (hover : cap.toNat < (c.delim :: escaped c q).length)

theorem FrameUnit.EncAfter.start (cap : Cap) (c : ReservedBytes) (u : FrameUnit) :
    ((u.begin cap).encEmit c.delim).EncAfter c cap [] := by
  by_cases hcap : cap = 0
  · subst hcap
    rw [FrameUnit.begin_encEmit_zero]
    exact .err rfl rfl (by simp)
  · exact .body (FrameUnit.InFrame.encStart c u hcap)

theorem EncEffect.encAfter {c : Config} {u u' : FrameUnit} {b : Byte} {cap : Cap} {q : List Byte}
    (h : EncEffect c u (.encPut b) u') (hu : u.EncAfter c.bytes cap q) : u'.EncAfter c.bytes cap (q ++ [b]) := by
  cases h with
  | nothing _ hnone =>
    cases hu with
    | body hf => exact absurd hf.state (hnone rfl).2
    | err hstate herr hover =>
      refine .err hstate herr (hover.trans_le ?_)
      rw [delim_escaped_concat, List.length_append]
      exact Nat.le_add_right _ _
  | put _ hb =>
    cases hu with
    | body hf =>
      by_cases hfits : (c.bytes.delim :: escaped c.bytes (q ++ [b])).length ≤ cap.toNat
      · exact .body (hf.encPut b hfits)
      · obtain ⟨hstate, herr⟩ := hf.encPut_overflow b (not_le.1 hfits)
        exact .err hstate herr (not_le.1 hfits)
    | err hstate => cases hstate.symm.trans hb

/-- The frame in progress and what `ENC.END` writes are the wire frame. -/
theorem wire_eq_append (c : ReservedBytes) (p : List Byte) :
    wire c p = (c.delim :: escaped c p) ++ (escape c (crcCalc p) ++ [c.delim]) := by
  rw [wire_eq, escaped_append, escaped_singleton, List.cons_append, List.append_assoc]

/-- `ENC.END` of a frame that fits. -/
theorem FrameUnit.InFrame.encEnd {cap : Cap} {c : ReservedBytes} {p : List Byte} {u : FrameUnit}
    (h : u.InEncFrame c cap p) (hfits : (wire c p).length ≤ cap.toNat) :
    (u.encEmitAll (escape c u.crc ++ [c.delim])).inBody FrameUnit.finish =
      (u.storeAll (escape c (crcCalc p) ++ [c.delim])).finish ∧
    (u.storeAll (escape c (crcCalc p) ++ [c.delim])).InFrame cap p (wire c p) := by
  rw [wire_eq_append] at hfits ⊢
  rw [h.crc]
  exact ⟨FrameUnit.encEmitAll_finish_fits _ h.state ((h.fits_iff _).2 hfits), h.storeAll _ hfits⟩

/-- `ENC.END` of a frame that does not fit. -/
theorem FrameUnit.InFrame.encEnd_overflow {cap : Cap} {c : ReservedBytes} {p : List Byte} {u : FrameUnit}
    (h : u.InEncFrame c cap p) (hover : cap.toNat < (wire c p).length) :
    ((u.encEmitAll (escape c u.crc ++ [c.delim])).inBody FrameUnit.finish).state = .err ∧
    ((u.encEmitAll (escape c u.crc ++ [c.delim])).inBody FrameUnit.finish).err = .capacityExceeded := by
  rw [wire_eq_append] at hover
  rw [h.crc, FrameUnit.encEmitAll_finish_overflow _ h.state h.len_le_cap
    (not_le.1 (mt (h.fits_iff _).1 (not_le.2 hover)))]
  exact ⟨rfl, rfl⟩

/-- ENC at the end of a whole frame: `DONE` with the wire frame, or `ERR` when it does not fit. -/
inductive FrameUnit.EncResult (c : ReservedBytes) (cap : Cap) (p : List Byte) (u : FrameUnit) : Prop
  | done (hstate : u.state = .done) (herr : u.err = .none) (hholds : u.Holds (wire c p))
      (hfits : (wire c p).length ≤ cap.toNat)
  | err (hstate : u.state = .err) (herr : u.err = .capacityExceeded) (hover : cap.toNat < (wire c p).length)

theorem EncEffect.encResult {c : Config} {u u' : FrameUnit} {cap : Cap} {p : List Byte}
    (h : EncEffect c u .encEnd u') (hu : u.EncAfter c.bytes cap p) : u'.EncResult c.bytes cap p := by
  cases h with
  | nothing _ hnone =>
    cases hu with
    | body hf => exact absurd hf.state (hnone rfl).2
    | err hstate herr hover =>
      refine .err hstate herr (hover.trans_le ?_)
      rw [wire_eq_append, List.length_append]
      exact Nat.le_add_right _ _
  | finish hb =>
    cases hu with
    | body hf =>
      by_cases hfits : (wire c.bytes p).length ≤ cap.toNat
      · obtain ⟨e, hend⟩ := hf.encEnd hfits
        rw [e]
        exact .done rfl hend.err (hend.holds.congr rfl rfl) hfits
      · obtain ⟨hstate, herr⟩ := hf.encEnd_overflow (not_le.1 hfits)
        exact .err hstate herr (not_le.1 hfits)
    | err hstate => cases hstate.symm.trans hb

/-- A whole frame through ENC, from any state. -/
theorem execPseudo_encodeFrame {cap : Cap} {p : List Byte} {s t : State}
    (h : execPseudo (.encodeFrame cap p) s = .next t) : t.enc.EncResult s.cfg.bytes cap p := by
  obtain ⟨a, hstart, hrest⟩ := execAll_cons_eq_next h
  obtain ⟨b, hputs, hend⟩ := execAll_append_eq_next hrest
  obtain ⟨-, rfl⟩ := exec_encStart_eq_next_iff.1 hstart
  obtain ⟨hcfg, -⟩ := execAll_host hputs
  have hafter : b.enc.EncAfter s.cfg.bytes cap ((p.map .encPut).filterMap encPutByte) := by
    refine execAll_enc_induct (P := fun done u => u.EncAfter s.cfg.bytes cap (done.filterMap encPutByte)) hputs
      (FrameUnit.EncAfter.start cap s.cfg.bytes s.enc) fun done i u u' hi hP heff => ?_
    obtain ⟨x, -, rfl⟩ := List.mem_map.1 hi
    rw [List.filterMap_append]
    exact heff.encAfter hP
  have heff := exec_encEffect (execAll_singleton_eq_next hend)
  rw [hcfg] at heff
  rw [filterMap_map_encPut] at hafter
  exact heff.encResult hafter

/-- Settles O37: the expansion's commands are ENC's, so nothing else changes; the result is `execPseudo_encodeFrame`,
and the capacity bound is O35. -/
theorem encodeAgreesWithTheFunction : Obligations.EncodeAgreesWithTheFunction := by
  intro cap p s hcap
  obtain ⟨t, ht⟩ := execAll_of_wellFormed (is := (Pseudo.encodeFrame cap p).expand) (s := s)
    (List.forall_mem_cons.2 ⟨decide_eq_true hcap, forall_mem_map_concat (fun _ => rfl) rfl⟩)
  refine ⟨t, ht, execAll_enc_frame ht (List.forall_mem_cons.2 ⟨rfl, forall_mem_map_concat (fun _ => rfl) rfl⟩),
    encNeverWritesPastTheCapacity cap _ s t (forall_mem_map_concat (fun _ => rfl) rfl) ht, ?_⟩
  cases execPseudo_encodeFrame ht with
  | done hstate herr hholds hfits =>
    rw [wire_length] at hfits
    rw [encodeFrame_ok hfits]
    refine ⟨hstate, herr, ?_, wire_length _ _, hostReadRange_of_holds (sp := .out) hstate hholds⟩
    rw [observe_encLen, State.lenOutput_of_done (sp := .out) hstate]
    exact hholds.len
  | err hstate herr hover =>
    rw [wire_length] at hover
    rw [encodeFrame_error hover]
    exact ⟨hstate, herr, rfl⟩

end Sys2Proof.Machine
end

section
/-! SUPPORT. DEC over a whole transaction (`42_decoder.md` R101 to R110): each `DEC.PUT` is one step of the scan, so in
`BODY` the unit holds what the scan has given so far, and it is in `ERR` exactly when the scan has failed. -/

namespace Sys2Proof.Machine

/-- DEC after the scan of some bytes has given `r`: the bytes so far and the pending escape, or the scan's error. -/
inductive FrameUnit.DecAfter (cap : Cap) (r : Except ErrorKind (List Byte × Bool)) (u : FrameUnit) (pending : Bool) :
    Prop
  | body (v : List Byte) (hr : r = .ok (v, pending)) (h : u.InFrame cap v v)
  | err (e : ErrorKind) (hr : r = .error e) (hstate : u.state = .err) (herr : u.err = e.errorCode)

/-- An append of the scan is a write of DEC. -/
theorem FrameUnit.InFrame.decEmit {cap : Cap} {v : List Byte} {u : FrameUnit} (b : Byte) (h : u.InFrame cap v v) :
    (u.decEmit b).DecAfter cap (scanPush cap.toNat v b) false := by
  have hlen : u.len.toNat = v.length := h.holds.len
  by_cases hfull : v.length = cap.toNat
  · rw [scanPush_full b hfull, FrameUnit.decEmit_full b h.state (FrameUnit.len_eq_cap (by rw [hlen, hfull, h.cap_eq]))]
    exact .err _ rfl rfl rfl
  · have hlt : u.len.toNat < u.cap.toNat := lt_of_le_of_ne h.len_le_cap (by rwa [hlen, h.cap_eq])
    rw [scanPush_room b hfull, FrameUnit.decEmit_room b h.state (FrameUnit.len_ne_cap hlt)]
    refine .body (v ++ [b]) rfl ⟨h.state, h.err, h.cap_eq, ?_, (h.holds.store b hlt).congr rfl rfl, ?_⟩
    · rw [FrameUnit.accumulate_crc, FrameUnit.store_crc, h.crc, crcCalc_concat]
    · rw [hlen, h.cap_eq] at hlt
      rwa [List.length_append]

/-- A byte of the scan is a `DEC.PUT`. -/
theorem FrameUnit.InFrame.decTake {cap : Cap} {v : List Byte} {u : FrameUnit} (c : ReservedBytes) (pending : Bool)
    (b : Byte) (h : u.InFrame cap v v) :
    (u.decTake c pending b).DecAfter cap (scanByte c cap.toNat (v, pending) b) (pendingAfter c pending b) := by
  cases pending with
  | true =>
    rw [pendingAfter_true]
    cases hk : continuation c b with
    | none =>
      rw [scanByte_unrecognised _ v hk, FrameUnit.decTake_unrecognised u hk]
      exact .err _ rfl rfl rfl
    | some x =>
      rw [scanByte_recognised _ v hk, FrameUnit.decTake_recognised u hk]
      exact h.decEmit x
  | false =>
    by_cases hesc : b = c.esc
    · rw [hesc, scanByte_esc, FrameUnit.decTake_esc, pendingAfter_false_esc]
      exact .body v rfl h
    · rw [scanByte_other _ v hesc, FrameUnit.decTake_other u hesc, pendingAfter_false_other c hesc]
      exact h.decEmit b

/-- What the scan of `f` has given before its end. -/
def scanned (c : ReservedBytes) (cap : Nat) (f : List Byte) : Except ErrorKind (List Byte × Bool) :=
  f.foldlM (scanByte c cap) ([], false)

theorem scan_eq_scanned (c : ReservedBytes) (f : List Byte) (cap : Nat) : scan c f cap = scanned c cap f >>= scanEnd :=
  scan_eq_foldlM c f cap

theorem scanned_nil (c : ReservedBytes) (cap : Nat) : scanned c cap [] = .ok ([], false) := rfl

theorem scanned_concat (c : ReservedBytes) (cap : Nat) (f : List Byte) (b : Byte) :
    scanned c cap (f ++ [b]) = scanned c cap f >>= fun r => scanByte c cap r b := by
  rw [scanned, List.foldlM_append]
  refine congrArg _ (funext fun r => ?_)
  rw [List.foldlM_cons]
  exact bind_pure _

theorem DecEffect.decAfter {c : Config} {u u' : FrameUnit} {pending pending' : Bool} {b : Byte} {cap : Cap}
    {f : List Byte} (h : DecEffect c u pending (.decPut b) u' pending')
    (hu : u.DecAfter cap (scanned c.bytes cap.toNat f) pending) :
    u'.DecAfter cap (scanned c.bytes cap.toNat (f ++ [b])) pending' := by
  rw [scanned_concat]
  cases h with
  | nothing _ hnone =>
    cases hu with
    | body v hr hf => exact absurd hf.state (hnone rfl).2
    | err e hr hstate herr => exact .err e (by rw [hr]; rfl) hstate herr
  | put _ hb =>
    cases hu with
    | body v hr hf =>
      rw [hr]
      exact hf.decTake c.bytes pending b
    | err e hr hstate => cases hstate.symm.trans hb

/-- What a command does to a frame in progress, as long as it stays in `BODY`. -/
theorem DecEffect.inFrame {c : Config} {u u' : FrameUnit} {pending pending' : Bool} {i : Instr} {cap : Cap}
    {done : List Instr} (h : DecEffect c u pending i u' pending') (hi : startsDec i = false)
    (hu : u.state = .body → u.DecAfter cap (scanned c.bytes cap.toNat (done.filterMap decPutByte)) pending)
    (hu' : u'.state = .body) :
    u'.DecAfter cap (scanned c.bytes cap.toNat ((done ++ [i]).filterMap decPutByte)) pending' := by
  rw [List.filterMap_append]
  cases h with
  | nothing _ hnone =>
    rw [List.filterMap_cons_none (decPutByte_of_nothing hnone hu'), List.filterMap_nil, List.append_nil]
    exact hu hu'
  | start => cases hi
  | put b hb => exact (DecEffect.put b hb).decAfter (hu hb)
  | finish hb =>
    rcases FrameUnit.decFinish_state pending u with hstate | ⟨hstate, -⟩
    · cases hstate.symm.trans hu'
    · cases hstate.symm.trans hu'

/-- With no escape pending the scan would end there. -/
theorem scan_of_scanned {c : ReservedBytes} {cap : Nat} {f v : List Byte} (h : scanned c cap f = .ok (v, false)) :
    scan c f cap = .ok v := by
  rw [scan_eq_scanned, h]
  rfl

/-- An escape is pending exactly after an `ESC` that the scan took with none pending. -/
theorem scanned_pending {c : ReservedBytes} {cap : Nat} {f v : List Byte} (h : scanned c cap f = .ok (v, true)) :
    ∃ g, f = g ++ [c.esc] ∧ scan c g cap = .ok v := by
  rcases List.eq_nil_or_concat f with rfl | ⟨g, b, rfl⟩
  · cases h
  · rw [List.concat_eq_append, scanned_concat] at h
    cases hg : scanned c cap g with
    | error e =>
      rw [hg] at h
      cases h
    | ok r =>
      obtain ⟨v', pending⟩ := r
      rw [hg, except_ok_bind] at h
      rcases scanByte_cases c cap v' pending b with ⟨rfl, rfl, e⟩ | e | ⟨x, e⟩
      · obtain rfl : v' = v := by simpa using e.symm.trans h
        exact ⟨g, List.concat_eq_append, scan_of_scanned hg⟩
      · cases e.symm.trans h
      · have hpush := e.symm.trans h
        by_cases hfull : v'.length = cap
        · cases (scanPush_full x hfull).symm.trans hpush
        · cases (scanPush_room x hfull).symm.trans hpush

/-- Settles O44: `START` begins the frame, and every later command that stays in `BODY` carries it on
(`DecEffect.inFrame`). -/
theorem decBodyHoldsTheUnescapedPrefix : Obligations.DecBodyHoldsTheUnescapedPrefix := by
  intro cap cs s t hcs h hbody
  obtain ⟨a, hstart, hrest⟩ := execAll_cons_eq_next h
  obtain ⟨-, rfl⟩ := exec_decStart_eq_next_iff.1 hstart
  have hafter : t.dec.state = .body →
      t.dec.DecAfter cap (scanned s.cfg.bytes cap.toNat (cs.filterMap decPutByte)) t.decEsc :=
    execAll_dec_induct (P := fun done u pending => u.state = .body →
      u.DecAfter cap (scanned s.cfg.bytes cap.toNat (done.filterMap decPutByte)) pending) hrest
      (fun _ => .body [] (scanned_nil _ _) (FrameUnit.InFrame.begin cap s.dec))
      fun done i u u' pending pending' hi hP heff => heff.inFrame (hcs i hi) hP
  cases hafter hbody with
  | body v hr hf =>
    refine ⟨v, fun he => scan_of_scanned (he ▸ hr), fun he => scanned_pending (he ▸ hr), hf.holds.len, hf.crc, hf.fits,
      hf.holds.cells⟩
  | err e hr hstate => cases hstate.symm.trans hbody

/-- Dropping the trailer leaves what stands before it. -/
theorem FrameUnit.Holds.dropTrailer {w : List Byte} {b : Byte} {u : FrameUnit} (h : u.Holds (w ++ [b])) :
    u.dropTrailer.Holds w where
  len := by
    have hlen := h.len
    rw [List.length_append, List.length_singleton] at hlen
    have hne : u.len ≠ 0 := by
      intro e
      rw [e] at hlen
      cases hlen
    rw [← FrameUnit.dropTrailer_len_toNat hne] at hlen
    exact Nat.succ.inj hlen
  cells k hk := by
    rw [FrameUnit.dropTrailer_buf, h.cells k (by simp; omega), List.getElem?_append_left hk]

/-- DEC at the end of a whole frame: `DONE` with the payload, or `ERR` with the error. -/
inductive FrameUnit.DecResult (r : Except ErrorKind (List Byte)) (u : FrameUnit) : Prop
  | done (p : List Byte) (hr : r = .ok p) (hstate : u.state = .done) (herr : u.err = .none) (hholds : u.Holds p)
  | err (e : ErrorKind) (hr : r = .error e) (hstate : u.state = .err) (herr : u.err = e.errorCode)

/-- `DEC.END` is what `decode` does after its scan. -/
theorem FrameUnit.InFrame.decFinish {c : ReservedBytes} {cap : Cap} {f v : List Byte} {u : FrameUnit} {pending : Bool}
    (h : u.InFrame cap v v) (hr : scanned c cap.toNat f = .ok (v, pending)) :
    (u.decFinish pending).DecResult (decodeFrame c f cap.toNat) := by
  cases pending with
  | true =>
    have hscan : scan c f cap.toNat = .error .malformedEscape := by
      rw [scan_eq_scanned, hr]
      rfl
    rw [FrameUnit.decFinish_pending]
    exact .err _ (decodeFrame_of_scan_error hscan) rfl rfl
  | false =>
    have hscan := scan_of_scanned hr
    have hlen := h.holds.len
    rcases List.eq_nil_or_concat v with rfl | ⟨w, b, rfl⟩
    · rw [FrameUnit.decFinish_empty false (BitVec.eq_of_toNat_eq hlen)]
      exact .err .malformedEscape (by rw [decodeFrame_of_scan hscan]; rfl) rfl rfl
    · have hne : u.len ≠ 0 := by
        intro e
        rw [e] at hlen
        simp at hlen
      rw [List.concat_eq_append] at *
      by_cases hcrc : crcCalc (w ++ [b]) = 0x00
      · rw [FrameUnit.decFinish_success hne (h.crc.trans hcrc)]
        exact .done w (decodeFrame_of_scan_verified hscan hcrc) rfl h.err (h.holds.dropTrailer.congr rfl rfl)
      · rw [FrameUnit.decFinish_mismatch hne (h.crc.symm ▸ hcrc)]
        exact .err _ (decodeFrame_of_scan_mismatch hscan (by simp) hcrc) rfl rfl

theorem DecEffect.decResult {c : Config} {u u' : FrameUnit} {pending pending' : Bool} {cap : Cap} {f : List Byte}
    (h : DecEffect c u pending .decEnd u' pending') (hu : u.DecAfter cap (scanned c.bytes cap.toNat f) pending) :
    u'.DecResult (decodeFrame c.bytes f cap.toNat) := by
  cases hu with
  | body v hr hf =>
    cases h with
    | nothing _ hnone => exact absurd hf.state (hnone rfl).2
    | finish hb => exact hf.decFinish hr
  | err e hr hstate herr =>
    cases h with
    | nothing =>
      refine .err e (decodeFrame_of_scan_error ?_) hstate herr
      rw [scan_eq_scanned, hr]
      rfl
    | finish hb => cases hstate.symm.trans hb

theorem filterMap_map_decPut (f : List Byte) : (f.map Instr.decPut).filterMap decPutByte = f := by
  rw [List.filterMap_map]
  exact List.filterMap_some

/-- A whole frame through DEC, from any state. -/
theorem execPseudo_decodeFrame {cap : Cap} {f : List Byte} {s t : State}
    (h : execPseudo (.decodeFrame cap f) s = .next t) : t.dec.DecResult (decodeFrame s.cfg.bytes f cap.toNat) := by
  obtain ⟨a, hstart, hrest⟩ := execAll_cons_eq_next h
  obtain ⟨b, hputs, hend⟩ := execAll_append_eq_next hrest
  obtain ⟨-, rfl⟩ := exec_decStart_eq_next_iff.1 hstart
  obtain ⟨hcfg, -⟩ := execAll_host hputs
  have hafter : b.dec.DecAfter cap (scanned s.cfg.bytes cap.toNat ((f.map .decPut).filterMap decPutByte)) b.decEsc := by
    refine execAll_dec_induct (P := fun done u pending =>
      u.DecAfter cap (scanned s.cfg.bytes cap.toNat (done.filterMap decPutByte)) pending) hputs
      (.body [] (scanned_nil _ _) (FrameUnit.InFrame.begin cap s.dec)) fun done i u u' pending pending' hi hP heff => ?_
    obtain ⟨x, -, rfl⟩ := List.mem_map.1 hi
    rw [List.filterMap_append]
    exact heff.decAfter hP
  have heff := exec_decEffect (execAll_singleton_eq_next hend)
  rw [hcfg] at heff
  rw [filterMap_map_decPut] at hafter
  exact heff.decResult hafter

/-- Settles O45: the expansion's commands are DEC's, so nothing else changes; the result is `execPseudo_decodeFrame`,
and the capacity bound is O43. -/
theorem decodeAgreesWithTheFunction : Obligations.DecodeAgreesWithTheFunction := by
  intro cap f s hcap
  obtain ⟨t, ht⟩ := execAll_of_wellFormed (is := (Pseudo.decodeFrame cap f).expand) (s := s)
    (List.forall_mem_cons.2 ⟨decide_eq_true hcap, forall_mem_map_concat (fun _ => rfl) rfl⟩)
  refine ⟨t, ht, execAll_dec_frame ht (List.forall_mem_cons.2 ⟨rfl, forall_mem_map_concat (fun _ => rfl) rfl⟩),
    decNeverWritesPastTheCapacity cap _ s t (forall_mem_map_concat (fun _ => rfl) rfl) ht, ?_⟩
  cases execPseudo_decodeFrame ht with
  | done p hr hstate herr hholds =>
    rw [hr]
    refine ⟨hstate, herr, ?_, hostReadRange_of_holds (sp := .msg) hstate hholds⟩
    rw [observe_decLen, State.lenOutput_of_done (sp := .msg) hstate]
    exact hholds.len
  | err e hr hstate herr =>
    rw [hr]
    exact ⟨hstate, herr⟩

/-- Settles O47: the host reads the wire frame (O37), whose stripped form decodes to the payload (O46, O45); decoding
leaves ENC alone. -/
theorem machineRoundTrip : Obligations.MachineRoundTrip := by
  intro s p ecap dcap hecap hdcap hframe hpayload
  obtain ⟨t, ht, -, -, henc⟩ := encodeAgreesWithTheFunction ecap p s hecap
  rw [encodeFrame_ok hframe] at henc
  obtain ⟨hdone, -, hlen, -, hread⟩ := henc
  obtain ⟨hcfg, -⟩ := execAll_host ht
  obtain ⟨hdec, -⟩ := decodeOfEncodeIsThePayload s.cfg.bytes p dcap.toNat
  obtain ⟨r, hr, hframe', -, hresult⟩ := decodeAgreesWithTheFunction dcap (stripDelimiters (wire s.cfg.bytes p)) t
    (hcfg ▸ hdcap)
  have henc : r.enc = t.enc := (congrArg State.enc hframe').trans rfl
  rw [hcfg, hdec hpayload] at hresult
  obtain ⟨hstate, -, hdlen, hdread⟩ := hresult
  exact ⟨t, r, ht, by rw [hlen, hread, hr], henc ▸ hdone, hstate, hdlen, hdread⟩

end Sys2Proof.Machine
end

section
/-! SUPPORT. What a command leaves alone, and where errors come from, read off its effect on ENC (`EncEffect`) and on
DEC (`DecEffect`). -/

namespace Sys2Proof.Machine

/-! ### Frames -/

/-- A command to ENC changes nothing but ENC. -/
theorem exec_enc_frame {i : Instr} {s t : State} (h : exec i s = .next t) (hi : i.component = .enc) :
    t = { s with enc := t.enc } :=
  execAll_enc_frame ((execAll_cons_of_next h []).trans rfl) (by simpa using hi)

/-- A command to DEC changes nothing but DEC and `dec_esc`. -/
theorem exec_dec_frame {i : Instr} {s t : State} (h : exec i s = .next t) (hi : i.component = .dec) :
    t = { s with dec := t.dec, decEsc := t.decEsc } :=
  execAll_dec_frame ((execAll_cons_of_next h []).trans rfl) (by simpa using hi)

/-- Settles O34: `START` writes at most cell 0, `PUT` and `END` are runs of writes (`encEmitAll_frame`). -/
theorem encFrame : Obligations.EncFrame := by
  refine ⟨fun cap s t h => ⟨exec_enc_frame h rfl, ?_⟩, fun b s t hl h => ⟨exec_enc_frame h rfl, ?_⟩,
    fun s t hl h => ⟨exec_enc_frame h rfl, ?_⟩⟩
  · obtain ⟨-, rfl⟩ := exec_encStart_eq_next_iff.1 h
    by_cases hcap : cap = 0
    · subst hcap
      rw [State.setEnc_enc, FrameUnit.begin_encEmit_zero]
      exact ⟨rfl, fun _ _ => rfl⟩
    · rw [State.setEnc_enc, FrameUnit.begin_encEmit_of_ne_zero _ _ hcap]
      exact ⟨rfl, fun a ha => Memory.read_write_other _ _ (ha.resolve_right hcap)⟩
  · by_cases hb : s.enc.state = .body
    · obtain rfl := Host.Outcome.next.inj ((exec_encPut_body b hb).symm.trans h)
      obtain ⟨hcap, -, -, hcells⟩ := FrameUnit.encEmitAll_frame (u := s.enc.accumulate b) (escape s.cfg.bytes b) hl
      exact ⟨hcap, fun a ha => hcells a (ha.resolve_left (not_not.2 hb))⟩
    · obtain rfl := Host.Outcome.next.inj ((exec_encPut_not_body b hb).symm.trans h)
      exact ⟨rfl, fun _ _ => rfl⟩
  · by_cases hb : s.enc.state = .body
    · obtain rfl := Host.Outcome.next.inj ((exec_encEnd_body hb).symm.trans h)
      obtain ⟨hcap, hcrc, -, hcells⟩ :=
        FrameUnit.encEmitAll_frame (escape s.cfg.bytes s.enc.crc ++ [s.cfg.bytes.delim]) hl
      rw [State.setEnc_enc, FrameUnit.inBody_finish_cap, FrameUnit.inBody_finish_crc, FrameUnit.inBody_finish_buf]
      exact ⟨hcap, hcrc, fun a ha => hcells a (ha.resolve_left (not_not.2 hb))⟩
    · obtain rfl := Host.Outcome.next.inj ((exec_encEnd_not_body hb).symm.trans h)
      exact ⟨rfl, rfl, fun _ _ => rfl⟩

/-- `dec_emit` keeps the capacity, and changes at most the cell at the write index, none when the buffer is full. -/
theorem FrameUnit.decEmit_frame (v : Byte) (u : FrameUnit) :
    (u.decEmit v).cap = u.cap ∧
      ∀ a, u.len = u.cap ∨ a ≠ u.len.toNat → Memory.read (u.decEmit v).buf a = Memory.read u.buf a := by
  rcases u.decEmit_cases v with e | ⟨-, -, e⟩ | ⟨-, hroom, e⟩ <;> rw [e]
  · exact ⟨rfl, fun _ _ => rfl⟩
  · exact ⟨rfl, fun _ _ => rfl⟩
  · exact ⟨rfl, fun a ha => Memory.read_write_other _ v (ha.resolve_left hroom)⟩

/-- `DEC.PUT` writes nothing for an `ESC` that begins an escape and for an unrecognised continuation. -/
theorem FrameUnit.decTake_frame (c : ReservedBytes) (pending : Bool) (b : Byte) (u : FrameUnit) :
    (u.decTake c pending b).cap = u.cap ∧
      ∀ a, u.len = u.cap ∨ a ≠ u.len.toNat ∨ (pending = false ∧ b = c.esc) ∨
          (pending = true ∧ b ≠ c.escDelim ∧ b ≠ c.escEsc) →
        Memory.read (u.decTake c pending b).buf a = Memory.read u.buf a := by
  cases pending with
  | true =>
    cases hk : continuation c b with
    | none =>
      rw [FrameUnit.decTake_unrecognised u hk]
      exact ⟨rfl, fun _ _ => rfl⟩
    | some v =>
      rw [FrameUnit.decTake_recognised u hk]
      obtain ⟨hcap, hcells⟩ := u.decEmit_frame v
      refine ⟨hcap, fun a ha => hcells a ?_⟩
      rcases ha with ha | ha | ⟨hf, -⟩ | ⟨-, hD, hE⟩
      · exact .inl ha
      · exact .inr ha
      · cases hf
      · cases hk.symm.trans (continuation_other c hD hE)
  | false =>
    by_cases hesc : b = c.esc
    · rw [hesc, FrameUnit.decTake_esc]
      exact ⟨rfl, fun _ _ => rfl⟩
    · rw [FrameUnit.decTake_other u hesc]
      obtain ⟨hcap, hcells⟩ := u.decEmit_frame b
      refine ⟨hcap, fun a ha => hcells a ?_⟩
      rcases ha with ha | ha | ⟨-, hf⟩ | ⟨hf, -⟩
      · exact .inl ha
      · exact .inr ha
      · exact absurd hf hesc
      · cases hf

/-- `DEC.END` keeps the capacity, the running CRC and the buffer. -/
theorem FrameUnit.decFinish_frame (pending : Bool) (u : FrameUnit) :
    (u.decFinish pending).cap = u.cap ∧ (u.decFinish pending).crc = u.crc ∧ (u.decFinish pending).buf = u.buf := by
  rcases u.decFinish_cases pending with e | ⟨-, -, -, e⟩ | ⟨-, -, -, e⟩ <;> rw [e] <;> exact ⟨rfl, rfl, rfl⟩

/-- `DEC.END` keeps `dec_esc`. -/
theorem exec_decEnd_frame {s t : State} (h : exec .decEnd s = .next t) : t = { s with dec := t.dec } := by
  by_cases hb : s.dec.state = .body
  · obtain rfl := Host.Outcome.next.inj ((exec_decEnd_body hb rfl).symm.trans h)
    rfl
  · obtain rfl := Host.Outcome.next.inj ((exec_decEnd_not_body hb).symm.trans h)
    rfl

/-- Settles O42: `decTake_frame` and `decFinish_frame`; `START` keeps the buffer. -/
theorem decFrame : Obligations.DecFrame := by
  refine ⟨fun cap s t h => ⟨exec_dec_frame h rfl, ?_⟩, fun b s t h => ⟨exec_dec_frame h rfl, ?_⟩,
    fun s t h => ⟨exec_decEnd_frame h, ?_⟩⟩
  · obtain ⟨-, rfl⟩ := exec_decStart_eq_next_iff.1 h
    exact fun _ => rfl
  · by_cases hb : s.dec.state = .body
    · obtain rfl := Host.Outcome.next.inj ((exec_decPut_body b hb rfl).symm.trans h)
      obtain ⟨hcap, hcells⟩ := s.dec.decTake_frame s.cfg.bytes s.decEsc b
      exact ⟨hcap, fun a ha => hcells a (ha.resolve_left (not_not.2 hb))⟩
    · obtain rfl := Host.Outcome.next.inj ((exec_decPut_not_body b hb).symm.trans h)
      exact ⟨rfl, fun _ _ => rfl⟩
  · by_cases hb : s.dec.state = .body
    · obtain rfl := Host.Outcome.next.inj ((exec_decEnd_body hb rfl).symm.trans h)
      obtain ⟨hcap, hcrc, hbuf⟩ := s.dec.decFinish_frame s.decEsc
      exact ⟨hcap, hcrc, fun a => congrArg (Memory.read · a) hbuf⟩
    · obtain rfl := Host.Outcome.next.inj ((exec_decEnd_not_body hb).symm.trans h)
      exact ⟨rfl, rfl, fun _ => rfl⟩

/-! ### Errors -/

/-- Settles O51: `raise` and the codes, by definition. -/
theorem raiseRecordsTheErrorOnly : Obligations.RaiseRecordsTheErrorOnly :=
  fun _ _ => ⟨rfl, rfl, rfl, rfl, rfl, rfl, rfl, rfl, rfl⟩

/-- A run of writes can raise only `CAPACITY_EXCEEDED`. -/
theorem FrameUnit.encEmitAll_raised {u : FrameUnit} (vs : List Byte) (hs : u.state ≠ .err)
    (hs' : (u.encEmitAll vs).state = .err) : (u.encEmitAll vs).err = .capacityExceeded := by
  induction vs generalizing u with
  | nil => exact absurd hs' hs
  | cons v vs ih =>
    rw [FrameUnit.encEmitAll_cons] at hs' ⊢
    rcases u.encEmit_cases v with e | ⟨-, -, e⟩ | ⟨-, -, e⟩ <;> rw [e] at hs' ⊢
    · exact ih hs hs'
    · rw [FrameUnit.encEmitAll_not_body vs (by simp)]
      rfl
    · exact ih hs hs'

/-- In `BODY` a run of writes raises only when it does not fit. -/
theorem FrameUnit.encEmitAll_raised_overflow {u : FrameUnit} {vs : List Byte} (hb : u.state = .body)
    (hs' : (u.encEmitAll vs).state = .err) (hl : u.len.toNat ≤ u.cap.toNat) :
    u.cap.toNat < u.len.toNat + vs.length := by
  by_contra hfits
  rw [FrameUnit.encEmitAll_state vs hb hl, if_neg hfits] at hs'
  cases hs'

/-- `ENC.END` is in `ERR` exactly when its run of writes is. -/
theorem FrameUnit.inBody_finish_state_eq_err {u : FrameUnit} (h : (u.inBody FrameUnit.finish).state = .err) :
    u.state = .err := by
  by_cases hb : u.state = .body
  · rw [FrameUnit.inBody_body hb] at h
    cases h
  · rwa [FrameUnit.inBody_not_body hb] at h

/-- The commands that put ENC into `ERR`. -/
theorem EncEffect.raised {c : Config} {u u' : FrameUnit} {i : Instr} (h : EncEffect c u i u') (hs : u.state ≠ .err)
    (hs' : u'.state = .err) : u'.err = .capacityExceeded ∧
      (i = .encStart 0 ∨
        (∃ b, i = .encPut b ∧ u.state = .body ∧ (u.len.toNat ≤ u.cap.toNat →
          u.cap.toNat < u.len.toNat + (escape c.bytes b).length)) ∨
        (i = .encEnd ∧ u.state = .body ∧ (u.len.toNat ≤ u.cap.toNat →
          u.cap.toNat < u.len.toNat + (escape c.bytes u.crc ++ [c.bytes.delim]).length))) := by
  cases h with
  | nothing => exact absurd hs' hs
  | start cap =>
    by_cases hcap : cap = 0
    · subst hcap
      rw [FrameUnit.begin_encEmit_zero]
      exact ⟨rfl, .inl rfl⟩
    · rw [FrameUnit.begin_encEmit_of_ne_zero _ _ hcap] at hs'
      cases hs'
  | put b hb =>
    exact ⟨FrameUnit.encEmitAll_raised (u := u.accumulate b) _ hs hs',
      .inr (.inl ⟨b, rfl, hb, FrameUnit.encEmitAll_raised_overflow (u := u.accumulate b) hb hs'⟩)⟩
  | finish hb =>
    have hrun := FrameUnit.inBody_finish_state_eq_err hs'
    rw [FrameUnit.inBody_finish_err]
    exact ⟨FrameUnit.encEmitAll_raised _ hs hrun, .inr (.inr ⟨rfl, hb, FrameUnit.encEmitAll_raised_overflow hb hrun⟩)⟩

/-- In `BODY`, `dec_emit` raises only with the buffer full. -/
theorem FrameUnit.decEmit_raised {u : FrameUnit} {v : Byte} (hb : u.state = .body) (hs' : (u.decEmit v).state = .err) :
    (u.decEmit v).err = .capacityExceeded ∧ u.len = u.cap := by
  rcases u.decEmit_cases v with e | ⟨-, hfull, e⟩ | ⟨-, -, e⟩ <;> rw [e] at hs' ⊢
  · cases hb.symm.trans hs'
  · exact ⟨rfl, hfull⟩
  · cases hb.symm.trans hs'

/-- The bytes that put DEC into `ERR`. -/
theorem FrameUnit.decTake_raised {c : ReservedBytes} {u : FrameUnit} {pending : Bool} {b : Byte} (hb : u.state = .body)
    (hs' : (u.decTake c pending b).state = .err) :
    ((u.decTake c pending b).err = .capacityExceeded ∧ u.len = u.cap ∧ (pending = false → b ≠ c.esc) ∧
      (pending = true → b = c.escDelim ∨ b = c.escEsc)) ∨
    ((u.decTake c pending b).err = .malformedEscape ∧ pending = true ∧ b ≠ c.escDelim ∧ b ≠ c.escEsc) := by
  cases pending with
  | true =>
    by_cases hk : b = c.escDelim ∨ b = c.escEsc
    · obtain ⟨v, hv⟩ := Option.ne_none_iff_exists'.1 (mt (continuation_eq_none_iff c b).1 (not_not.2 hk))
      rw [FrameUnit.decTake_recognised u hv] at hs' ⊢
      obtain ⟨herr, hfull⟩ := FrameUnit.decEmit_raised hb hs'
      exact .inl ⟨herr, hfull, nofun, fun _ => hk⟩
    · rw [FrameUnit.decTake_unrecognised u ((continuation_eq_none_iff c b).2 hk)]
      exact .inr ⟨rfl, rfl, not_or.1 hk⟩
  | false =>
    by_cases hesc : b = c.esc
    · rw [hesc, FrameUnit.decTake_esc] at hs'
      cases hb.symm.trans hs'
    · rw [FrameUnit.decTake_other u hesc] at hs' ⊢
      obtain ⟨herr, hfull⟩ := FrameUnit.decEmit_raised hb hs'
      exact .inl ⟨herr, hfull, fun _ => hesc, nofun⟩

/-- The ends that put DEC into `ERR`. -/
theorem FrameUnit.decFinish_raised {u : FrameUnit} {pending : Bool} (hs' : (u.decFinish pending).state = .err) :
    ((u.decFinish pending).err = .malformedEscape ∧ (pending = true ∨ u.len = 0)) ∨
    ((u.decFinish pending).err = .checksumMismatch ∧ pending = false ∧ u.len ≠ 0 ∧ u.crc ≠ 0x00) := by
  cases pending with
  | true => exact .inl ⟨rfl, .inl rfl⟩
  | false =>
    by_cases hl : u.len = 0
    · rw [FrameUnit.decFinish_empty false hl]
      exact .inl ⟨rfl, .inr hl⟩
    · by_cases hc : u.crc = 0x00
      · rw [FrameUnit.decFinish_success hl hc] at hs'
        cases hs'
      · rw [FrameUnit.decFinish_mismatch hl hc]
        exact .inr ⟨rfl, rfl, hl, hc⟩

/-- Settles O52: the effects that can raise, for ENC (`EncEffect.raised`) and for DEC (`decTake_raised`,
`decFinish_raised`). -/
theorem onlyTheseCommandsRaise : Obligations.OnlyTheseCommandsRaise := by
  refine fun i s t h => ⟨(exec_encEffect h).raised, fun hs hs' => ?_⟩
  have heff := exec_decEffect h
  generalize t.dec = u', t.decEsc = pending' at heff hs' ⊢
  cases heff with
  | nothing => exact absurd hs' hs
  | start => cases hs'
  | put b hb =>
    refine ⟨hb, ?_⟩
    rcases FrameUnit.decTake_raised hb hs' with ⟨herr, hfull, hplain, hcont⟩ | ⟨herr, hpending, hD, hE⟩
    · exact .inl ⟨herr, b, rfl, hfull, hplain, hcont⟩
    · exact .inr (.inl ⟨herr, .inl ⟨b, rfl, hpending, hD, hE⟩⟩)
  | finish hb =>
    refine ⟨hb, ?_⟩
    rcases FrameUnit.decFinish_raised hs' with ⟨herr, hwhy⟩ | ⟨herr, hpending, hl, hc⟩
    · exact .inr (.inl ⟨herr, .inr ⟨rfl, hwhy⟩⟩)
    · exact .inr (.inr ⟨herr, rfl, hpending, hl, hc⟩)

theorem EncEffect.eq_of_err {c : Config} {u u' : FrameUnit} {i : Instr} (h : EncEffect c u i u')
    (hi : startsEnc i = false) (hs : u.state = .err) : u' = u := by
  cases h with
  | nothing => rfl
  | start => cases hi
  | put b hb => cases hs.symm.trans hb
  | finish hb => cases hs.symm.trans hb

theorem DecEffect.eq_of_err {c : Config} {u u' : FrameUnit} {pending pending' : Bool} {i : Instr}
    (h : DecEffect c u pending i u' pending') (hi : startsDec i = false) (hs : u.state = .err) :
    u' = u ∧ pending' = pending := by
  cases h with
  | nothing => exact ⟨rfl, rfl⟩
  | start => cases hi
  | put b hb => cases hs.symm.trans hb
  | finish hb => cases hs.symm.trans hb

/-- Settles O53: in `ERR` no effect but `START` moves a unit, and the capacity 0 of a `START` is exceeded by its first
write. -/
theorem errorsLastUntilStart : Obligations.ErrorsLastUntilStart := by
  refine ⟨fun cs s t hs hcs h => ?_, fun cs s t hs hcs h => ?_, fun s hs => ?_⟩
  · refine execAll_enc_induct (P := fun _ u => u = s.enc) h rfl ?_
    rintro _ i _ u' hi rfl heff
    exact heff.eq_of_err (hcs i hi) hs
  · refine execAll_dec_induct (P := fun _ u pending => u = s.dec ∧ pending = s.decEsc) h ⟨rfl, rfl⟩ ?_
    rintro _ i _ u' _ pending' hi ⟨rfl, rfl⟩ heff
    exact heff.eq_of_err (hcs i hi) hs
  · refine ⟨_, exec_encStart_eq_next_iff.2 ⟨Nat.zero_le _, rfl⟩, ?_⟩
    rw [State.setEnc_enc, FrameUnit.begin_encEmit_zero]
    exact ⟨rfl, rfl⟩

/-! ### Pseudo-instructions forget the past -/

/-- A whole frame that completes had a capacity that fits. -/
theorem encodeFrame_cap_le {cap : Cap} {p : List Byte} {s t : State} (h : execPseudo (.encodeFrame cap p) s = .next t) :
    cap.toNat ≤ s.cfg.outSize := by
  obtain ⟨a, hstart, -⟩ := execAll_cons_eq_next h
  exact (exec_encStart_eq_next_iff.1 hstart).1

theorem decodeFrame_cap_le {cap : Cap} {f : List Byte} {s t : State} (h : execPseudo (.decodeFrame cap f) s = .next t) :
    cap.toNat ≤ s.cfg.msgSize := by
  obtain ⟨a, hstart, -⟩ := execAll_cons_eq_next h
  exact (exec_decStart_eq_next_iff.1 hstart).1

/-- Two units that hold the same sequence have the same length, and in `DONE` the host reads the same from both. -/
theorem hostReadRange_eq_of_holds {s s' : State} {sp : Space} {w : List Byte} (hdone : (s.frameUnit sp).state = .done)
    (hdone' : (s'.frameUnit sp).state = .done) (hw : (s.frameUnit sp).Holds w) (hw' : (s'.frameUnit sp).Holds w) :
    (s'.frameUnit sp).len = (s.frameUnit sp).len ∧
      hostReadRange s' sp (s.frameUnit sp).len.toNat = hostReadRange s sp (s.frameUnit sp).len.toNat := by
  refine ⟨BitVec.eq_of_toNat_eq (hw'.len.trans hw.len.symm), ?_⟩
  rw [hw.len, hostReadRange_of_holds hdone hw, hostReadRange_of_holds hdone' hw']

/-- Settles O54: what a pseudo-instruction ends with is a function of its operands and the configuration (O25,
`EncResult`, `DecResult`). -/
theorem pseudoResultsForgetThePast : Obligations.PseudoResultsForgetThePast := by
  intro p s s' t hcfg h
  cases p with
  | crcCalc d =>
    cases h.symm.trans (execAll_crcClr_crcUpd d s)
    exact ⟨_, execAll_crcClr_crcUpd d s', rfl⟩
  | crcVerify d =>
    cases h.symm.trans (execAll_crcClr_crcUpd d s)
    exact ⟨_, execAll_crcClr_crcUpd d s', rfl⟩
  | encodeFrame cap p =>
    obtain ⟨t', ht', -⟩ := encodeAgreesWithTheFunction cap p s' (hcfg ▸ encodeFrame_cap_le h)
    have hres' := execPseudo_encodeFrame ht'
    rw [← hcfg] at hres'
    refine ⟨t', ht', ?_⟩
    cases execPseudo_encodeFrame h with
    | done hstate herr hholds hfits =>
      cases hres' with
      | done hstate' herr' hholds' =>
        exact ⟨hstate'.trans hstate.symm, herr'.trans herr.symm, fun _ =>
          hostReadRange_eq_of_holds (sp := .out) hstate hstate' hholds hholds'⟩
      | err _ _ hover => exact absurd hfits (not_le.2 hover)
    | err hstate herr hover =>
      cases hres' with
      | done _ _ _ hfits => exact absurd hfits (not_le.2 hover)
      | err hstate' herr' =>
        exact ⟨hstate'.trans hstate.symm, herr'.trans herr.symm, fun hdone => by cases hstate.symm.trans hdone⟩
  | decodeFrame cap f =>
    obtain ⟨t', ht', -⟩ := decodeAgreesWithTheFunction cap f s' (hcfg ▸ decodeFrame_cap_le h)
    have hres' := execPseudo_decodeFrame ht'
    rw [← hcfg] at hres'
    refine ⟨t', ht', ?_⟩
    cases execPseudo_decodeFrame h with
    | done p hr hstate herr hholds =>
      cases hres' with
      | done p' hr' hstate' herr' hholds' =>
        obtain rfl := Except.ok.inj (hr.symm.trans hr')
        exact ⟨hstate'.trans hstate.symm, herr'.trans herr.symm, fun _ =>
          hostReadRange_eq_of_holds (sp := .msg) hstate hstate' hholds hholds'⟩
      | err e hr' => cases hr.symm.trans hr'
    | err e hr hstate herr =>
      cases hres' with
      | done p' hr' => cases hr.symm.trans hr'
      | err e' hr' hstate' herr' =>
        obtain rfl := Except.error.inj (hr.symm.trans hr')
        exact ⟨hstate'.trans hstate.symm, herr'.trans herr.symm, fun hdone => by cases hstate.symm.trans hdone⟩

end Sys2Proof.Machine
end

section
/-! SUPPORT. No command reads a buffer (`20_memory.md` R31, R34): units with the same registers and different buffers
have the same registers after every effect. -/

namespace Sys2Proof.Machine

/-- Two units with the same registers; their buffers may differ. -/
def FrameUnit.SameRegisters (u u' : FrameUnit) : Prop := ∃ m, u' = { u with buf := m }

theorem FrameUnit.SameRegisters.state {u u' : FrameUnit} (h : u.SameRegisters u') : u'.state = u.state := by
  obtain ⟨m, rfl⟩ := h
  rfl

theorem FrameUnit.SameRegisters.crc {u u' : FrameUnit} (h : u.SameRegisters u') : u'.crc = u.crc := by
  obtain ⟨m, rfl⟩ := h
  rfl

theorem FrameUnit.SameRegisters.raise {u u' : FrameUnit} (e : ErrorKind) (h : u.SameRegisters u') :
    (u.raise e).SameRegisters (u'.raise e) := by
  obtain ⟨m, rfl⟩ := h
  exact ⟨m, rfl⟩

theorem FrameUnit.SameRegisters.begin {u u' : FrameUnit} (cap : Cap) (h : u.SameRegisters u') :
    (u.begin cap).SameRegisters (u'.begin cap) := by
  obtain ⟨m, rfl⟩ := h
  exact ⟨m, rfl⟩

theorem FrameUnit.SameRegisters.store {u u' : FrameUnit} (v : Byte) (h : u.SameRegisters u') :
    (u.store v).SameRegisters (u'.store v) := by
  obtain ⟨m, rfl⟩ := h
  exact ⟨_, rfl⟩

theorem FrameUnit.SameRegisters.accumulate {u u' : FrameUnit} (v : Byte) (h : u.SameRegisters u') :
    (u.accumulate v).SameRegisters (u'.accumulate v) := by
  obtain ⟨m, rfl⟩ := h
  exact ⟨m, rfl⟩

/-- A test on the registers goes the same way in both units. -/
theorem FrameUnit.SameRegisters.inBody {u u' : FrameUnit} {f : FrameUnit → FrameUnit} (h : u.SameRegisters u')
    (hf : (f u).SameRegisters (f u')) : (u.inBody f).SameRegisters (u'.inBody f) := by
  by_cases hb : u.state = .body
  · rwa [FrameUnit.inBody_body hb, FrameUnit.inBody_body (h.state.trans hb)]
  · rwa [FrameUnit.inBody_not_body hb, FrameUnit.inBody_not_body (h.state ▸ hb)]

theorem FrameUnit.SameRegisters.ifRoom {u u' : FrameUnit} {f : FrameUnit → FrameUnit} (h : u.SameRegisters u')
    (hf : (f u).SameRegisters (f u')) : (u.ifRoom f).SameRegisters (u'.ifRoom f) := by
  have hlen : u'.len = u.len := by
    obtain ⟨m, rfl⟩ := h
    rfl
  have hcap : u'.cap = u.cap := by
    obtain ⟨m, rfl⟩ := h
    rfl
  unfold FrameUnit.ifRoom
  rw [hlen, hcap]
  split
  · exact h.raise _
  · exact hf

theorem FrameUnit.SameRegisters.encEmit {u u' : FrameUnit} (v : Byte) (h : u.SameRegisters u') :
    (u.encEmit v).SameRegisters (u'.encEmit v) := h.inBody (h.ifRoom (h.store v))

theorem FrameUnit.SameRegisters.encEmitAll {u u' : FrameUnit} (vs : List Byte) (h : u.SameRegisters u') :
    (u.encEmitAll vs).SameRegisters (u'.encEmitAll vs) := by
  induction vs generalizing u u' with
  | nil => exact h
  | cons v vs ih => exact ih (h.encEmit v)

theorem FrameUnit.SameRegisters.finish {u u' : FrameUnit} (h : u.SameRegisters u') :
    u.finish.SameRegisters u'.finish := by
  obtain ⟨m, rfl⟩ := h
  exact ⟨m, rfl⟩

theorem FrameUnit.SameRegisters.decEmit {u u' : FrameUnit} (v : Byte) (h : u.SameRegisters u') :
    (u.decEmit v).SameRegisters (u'.decEmit v) := h.inBody (h.ifRoom ((h.store v).accumulate v))

theorem FrameUnit.SameRegisters.decTake {u u' : FrameUnit} (c : ReservedBytes) (pending : Bool) (b : Byte)
    (h : u.SameRegisters u') : (u.decTake c pending b).SameRegisters (u'.decTake c pending b) := by
  unfold FrameUnit.decTake
  split
  · split
    · exact h.decEmit _
    · exact h.raise _
  · split
    · exact h
    · exact h.decEmit b

theorem FrameUnit.SameRegisters.decFinish {u u' : FrameUnit} (pending : Bool) (h : u.SameRegisters u') :
    (u.decFinish pending).SameRegisters (u'.decFinish pending) := by
  obtain ⟨m, rfl⟩ := h
  unfold FrameUnit.decFinish
  split
  · exact ⟨m, rfl⟩
  · split
    · exact ⟨m, rfl⟩
    · split <;> exact ⟨m, rfl⟩

theorem EncEffect.sameRegisters {c : Config} {u u' v v' : FrameUnit} {i : Instr} (h : EncEffect c u i v)
    (h' : EncEffect c u' i v') (hu : u.SameRegisters u') : v.SameRegisters v' := by
  cases h with
  | nothing _ hnone =>
    cases h' with
    | nothing => exact hu
    | start => cases (hnone rfl).1
    | put b hb => exact absurd (hu.state.symm.trans hb) (hnone rfl).2
    | finish hb => exact absurd (hu.state.symm.trans hb) (hnone rfl).2
  | start cap =>
    cases h' with
    | nothing _ hnone => cases (hnone rfl).1
    | start => exact (hu.begin cap).encEmit _
  | put b hb =>
    cases h' with
    | nothing _ hnone => exact absurd (hu.state.trans hb) (hnone rfl).2
    | put => exact (hu.accumulate b).encEmitAll _
  | finish hb =>
    cases h' with
    | nothing _ hnone => exact absurd (hu.state.trans hb) (hnone rfl).2
    | finish =>
      have hrun := hu.encEmitAll (escape c.bytes u.crc ++ [c.bytes.delim])
      rw [hu.crc]
      exact hrun.inBody hrun.finish

theorem DecEffect.sameRegisters {c : Config} {u u' v v' : FrameUnit} {pending p p' : Bool} {i : Instr}
    (h : DecEffect c u pending i v p) (h' : DecEffect c u' pending i v' p') (hu : u.SameRegisters u') :
    v.SameRegisters v' ∧ p' = p := by
  cases h with
  | nothing _ hnone =>
    cases h' with
    | nothing => exact ⟨hu, rfl⟩
    | start => cases (hnone rfl).1
    | put b hb => exact absurd (hu.state.symm.trans hb) (hnone rfl).2
    | finish hb => exact absurd (hu.state.symm.trans hb) (hnone rfl).2
  | start cap =>
    cases h' with
    | nothing _ hnone => cases (hnone rfl).1
    | start => exact ⟨hu.begin cap, rfl⟩
  | put b hb =>
    cases h' with
    | nothing _ hnone => exact absurd (hu.state.trans hb) (hnone rfl).2
    | put => exact ⟨hu.decTake _ _ b, rfl⟩
  | finish hb =>
    cases h' with
    | nothing _ hnone => exact absurd (hu.state.trans hb) (hnone rfl).2
    | finish => exact ⟨hu.decFinish _, rfl⟩

/-- The state with other contents of the two buffers. -/
def State.withBuffers (out msg : Memory) (s : State) : State :=
  { s with enc := { s.enc with buf := out }, dec := { s.dec with buf := msg } }

/-- Only `DEC.PUT` writes `MSG`. -/
theorem DecEffect.buf {c : Config} {u u' : FrameUnit} {pending pending' : Bool} {i : Instr}
    (h : DecEffect c u pending i u' pending') (hi : decPutByte i = none) : u'.buf = u.buf := by
  cases h with
  | nothing => rfl
  | start => rfl
  | put => cases hi
  | finish =>
    obtain ⟨-, -, hbuf⟩ := u.decFinish_frame pending
    exact hbuf

/-- The CRC register that a command leaves depends on the CRC register alone. -/
theorem exec_crc_congr {i : Instr} {s s' t t' : State} (hcfg : s.cfg = s'.cfg) (hcrc : s.crc = s'.crc)
    (h : exec i s = .next t) (h' : exec i s' = .next t') : t'.crc = t.crc := by
  by_cases hi : i.component = .crc
  · obtain ⟨t'', ht'', hunit⟩ := exec_local hcfg (hi.symm ▸ hcrc : s.SameUnit s' i.component) h
    obtain rfl := Host.Outcome.next.inj (ht''.symm.trans h')
    exact (hi ▸ hunit : t''.SameUnit t .crc)
  · obtain ⟨-, -, -, hsame, -⟩ := exec_frame h
    obtain ⟨-, -, -, hsame', -⟩ := exec_frame h'
    rw [hsame hi, hsame' hi, hcrc]

/-- Settles O17: the buffers that change are those of `exec_frame` and `DecEffect.buf`; over other buffers the same
command completes, and leaves the same registers (`EncEffect.sameRegisters`, `DecEffect.sameRegisters`). -/
theorem buffersAreReachedAsTheMapSays : Obligations.BuffersAreReachedAsTheMapSays := by
  refine ⟨fun i s t h => ⟨fun hi => ?_, (exec_decEffect h).buf⟩, fun i s t m m' h => ?_⟩
  · obtain ⟨-, -, -, -, henc, -⟩ := exec_frame h
    rw [henc hi]
  · obtain ⟨t', h'⟩ := (exec_next_iff_wellFormed i (s.withBuffers m m')).2 ((exec_next_iff_wellFormed i s).1 ⟨t, h⟩)
    have henc : EncEffect s.cfg { s.enc with buf := m } i t'.enc := exec_encEffect h'
    have hdec : DecEffect s.cfg { s.dec with buf := m' } s.decEsc i t'.dec t'.decEsc := exec_decEffect h'
    obtain ⟨n, hn⟩ := (exec_encEffect h).sameRegisters henc ⟨m, rfl⟩
    obtain ⟨⟨n', hn'⟩, hesc⟩ := (exec_decEffect h).sameRegisters hdec ⟨m', rfl⟩
    have hcrc := exec_crc_congr (s := s) (s' := s.withBuffers m m') rfl rfl h h'
    obtain ⟨hcfg, hport, hdraws, -⟩ := exec_frame h
    obtain ⟨hcfg', hport', hdraws', -⟩ := exec_frame h'
    refine ⟨n, n', h'.trans (congrArg Host.Outcome.next ?_)⟩
    refine State.eq_of_sameUnit (hcfg'.trans hcfg.symm) (hport'.trans hport.symm) (hdraws'.trans hdraws.symm)
      fun k => ?_
    cases k with
    | crc => exact hcrc
    | enc => exact hn
    | dec => exact ⟨hn', hesc⟩

end Sys2Proof.Machine
end
